-- ==== Sys2Proof/Word.lean ====
section
/-! DEFINITION. The words, the slot numbers and the small types every other file is written in
(spec/00_scope.md R5, R6, R8; spec/10_state.md R11, R13, R15). -/

namespace Sys2Proof

/-- `CW`, the width of the control-register image (R5, decision D1 of the spec). -/
abbrev CW : Nat := 32

/-- `NSLOT`, the number of hardware slots (R5). -/
abbrev NSLOT : Nat := 4

/-- `Word` of R8: an unsigned `CW`-bit value, bit 0 least significant (R6). -/
abbrev Word := BitVec CW

/-- `Slot` of R8: 0, 1, 2 or 3. -/
abbrev Slot := Fin NSLOT

/-- `SlotIndex` of R8 and R11. `none` is the value -1, "no hardware slot currently reserved by this
instance"; `some s` is the claimed slot. R11 allows this form in place of the bit pattern. -/
abbrev SlotIndex := Option Slot

/-- `CondCode` of R8: the 2-bit condition as presented, legal or not. -/
abbrev CondCode := BitVec 2

/-- The legal access widths (`WIDTHS` of R5). -/
inductive Width where
  | one
  | two
  | four
  deriving DecidableEq, Repr

/-- The legal trigger conditions (`CONDS` of R5). The second is never read-only (R52, U8). -/
inductive Condition where
  | write
  | readOrWrite
  deriving DecidableEq, Repr

/-- What a processor access does, as far as a watch tells accesses apart (R116). -/
inductive AccessKind where
  | read
  | write
  | fetch
  deriving DecidableEq, Repr

/-- The context of one execution context (R13, R15, R23): four debug-address registers and the
debug-control register, at an address width `aw` (`AW` of R5, which the spec leaves open). -/
structure Context (aw : Nat) where
  /-- `DA[0..3]` -/
  da : Vector (BitVec aw) NSLOT
  /-- `DC` -/
  dc : Word
  deriving DecidableEq, Repr

/-- One data or instruction access of the processor in the watched address space (R24, R116): `size`
bytes from `addr` up. `addr` is the address the processor compares with the address registers; whether it is virtual
or physical, and what translation comes before, the spec leaves open (R44). DESIGN CHOICE: log 18. -/
structure Access (aw : Nat) where
  kind : AccessKind
  addr : BitVec aw
  size : Nat
  deriving DecidableEq, Repr

end Sys2Proof
end

