-- ==== Sys2Proof/Machine/Layout.lean ====
section
/-! DEFINITION. The register layout of the control image, as parameters by the spec's names
(spec/00_scope.md R5; spec/10_state.md R16; spec/40_encoder_primitives.md R75). The numbers are the spec's
decisions D4 and D6, taken there from general knowledge: PRESUMED, unsafe, log 8. -/

namespace Sys2Proof.Machine

/-- `EN_W`, the width of an enable field (R5). -/
abbrev enW : Nat := 2

/-- `CL_W`, the width of a condition+length field (R5). -/
abbrev clW : Nat := 4

/-- `EN_OFF(s)` = 2·s (R75). -/
def enOff (s : Slot) : Nat := 2 * s.val

/-- `CL_OFF(s)` = 16 + 4·s (R75). -/
def clOff (s : Slot) : Nat := 16 + 4 * s.val

/-- `EN_SET`, the value activation writes to the enable field (R5). -/
abbrev enSet : Nat := 1

/-- The value deactivation writes to the enable field (R77). -/
abbrev enClear : Nat := 0

end Sys2Proof.Machine
end

