-- ==== Sys2Proof/Machine/Operands.lean ====
section
/-! DEFINITION. From a request as presented to its field codes: the legal widths and conditions, the code
lookups and their inverses, and the validation predicate (spec/30_encoding.md R52 to R54, R58;
spec/40_encoder_primitives.md R72 to R74, R79; spec/42_commands.md R90; spec/10_state.md R11). -/

namespace Sys2Proof.Machine

/-- The width in bytes. -/
def widthBytes : Width → Nat
  | .one => 1
  | .two => 2
  | .four => 4

/-- The legal widths among the presented ones (`WIDTHS` of R5; R60, R90). -/
def legalWidth : Nat → Option Width
  | 1 => some .one
  | 2 => some .two
  | 4 => some .four
  | _ => none

/-- `ENC_COND` (R72). -/
def encCond : Condition → BitVec 2
  | .write => 0b01#2
  | .readOrWrite => 0b11#2

/-- `DEC_COND` (R79), which is also the test for a legal condition code (`CONDS` of R5; R60, R90). -/
def decCond : BitVec 2 → Option Condition
  | 0b01#2 => some .write
  | 0b11#2 => some .readOrWrite
  | _ => none

/-- `ENC_LEN` (R73), defined on the three legal widths and nowhere else. -/
def encLen : Width → BitVec 2
  | .one => 0b00#2
  | .two => 0b01#2
  | .four => 0b11#2

/-- `DEC_LEN` (R79), undefined on `10`. -/
def decLen : BitVec 2 → Option Width
  | 0b00#2 => some .one
  | 0b01#2 => some .two
  | 0b11#2 => some .four
  | _ => none

/-- `ENC_CL(w, c)` = `ENC_LEN(w) ++ ENC_COND(c)` (R74; the order is D5 of the spec, log 8). -/
def encCl (w : Width) (c : Condition) : BitVec 4 := encLen w ++ encCond c

/-- A request that passed validation. -/
structure Request (aw : Nat) where
  addr : BitVec aw
  width : Width
  cond : Condition
  deriving DecidableEq, Repr

/-- `VALID(a, w, c)` of R90, as the request it lets through: the width legal, the condition legal, the
address non-null and a multiple of the width. The alignment is asked only of a legal width. -/
def request {aw : Nat} (a : BitVec aw) (w : Nat) (c : CondCode) : Option (Request aw) :=
  match legalWidth w, decCond c with
  | some lw, some lc => if a ≠ 0#aw ∧ a.toNat % widthBytes lw = 0 then some ⟨a, lw, lc⟩ else none
  | _, _ => none

/-- `VALID(a, w, c)` (R90). -/
def valid {aw : Nat} (a : BitVec aw) (w : Nat) (c : CondCode) : Bool := (request a w c).isSome

/-- `SLOT` as a 3-bit two's-complement pattern (R11, D13 of the spec). -/
def slotBits : SlotIndex → BitVec 3
  | none => 0b111#3
  | some s => BitVec.ofNat 3 s.val

/-- The slot index a pattern stands for; `100`, `101` and `110` stand for none (R11). -/
def slotOfBits : BitVec 3 → Option SlotIndex
  | 0b111#3 => some none
  | 0b000#3 => some (some 0)
  | 0b001#3 => some (some 1)
  | 0b010#3 => some (some 2)
  | 0b011#3 => some (some 3)
  | _ => none

end Sys2Proof.Machine
end

