-- ==== Sys2Proof/Machine/Flags.lean ====
section
/-! DEFINITION. The fields of the control image: the bit-field merge, the two image transformers, the field
readers and the slot allocator (spec/40_encoder_primitives.md R70, R76, R77, R79; spec/41_slot_allocator.md
R80, R81). The block has no status flags (R26); the enable fields are the only flags there are. -/

namespace Sys2Proof.Machine

/-- `n` ones starting at bit `pos`, cut to the word (R70's `fmask`). -/
def fieldMask (pos n : Nat) : Word := BitVec.ofNat CW ((2 ^ n - 1) <<< pos)

/-- `v` cut to `n` bits and moved to bit `pos`, cut to the word (R70's `vfield`). -/
def fieldValue (pos n v : Nat) : Word := BitVec.ofNat CW ((v % 2 ^ n) <<< pos)

/-- `SETBITS(word, pos, n, v)` (R70). -/
def setBits (word : Word) (pos n v : Nat) : Word :=
  (word &&& ~~~(fieldMask pos n)) ||| fieldValue pos n v

/-- `PACK_SLOT(dc, s, w, c)` (R76): slot `s` configured for the request and enabled. -/
def packSlot (dc : Word) (s : Slot) (w : Width) (c : Condition) : Word :=
  let dc1 := setBits dc (clOff s) clW (encCl w c).toNat
  setBits dc1 (enOff s) enW enSet

/-- `CLEAR_ENABLE(dc, s)` (R77): slot `s` disabled, nothing else changed. -/
def clearEnable (dc : Word) (s : Slot) : Word := setBits dc (enOff s) enW enClear

/-- `EN_OF(dc, s)` = `dc[2s+1 : 2s]` (R79). -/
def enOf (dc : Word) (s : Slot) : BitVec enW := dc.extractLsb' (enOff s) enW

/-- `L_OF(dc, s)` = `dc[2s]` (R79). -/
def lOf (dc : Word) (s : Slot) : Bool := dc.getLsbD (enOff s)

/-- `CL[s]` = `dc[16+4s+3 : 16+4s]` (R16). -/
def clOf (dc : Word) (s : Slot) : BitVec clW := dc.extractLsb' (clOff s) clW

/-- `COND_OF(dc, s)` = `dc[16+4s+1 : 16+4s]` (R79). -/
def condOf (dc : Word) (s : Slot) : BitVec 2 := dc.extractLsb' (clOff s) 2

/-- `LEN_OF(dc, s)` = `dc[16+4s+3 : 16+4s+2]` (R79). -/
def lenOf (dc : Word) (s : Slot) : BitVec 2 := dc.extractLsb' (clOff s + 2) 2

/-- `SLOT_FREE(dc, s)` (R80): free exactly when both bits of the enable field are 0. -/
def slotFree (dc : Word) (s : Slot) : Bool := enOf dc s == 0b00#2

/-- `FIRST_FREE(dc)` (R81): the lowest-numbered free slot. -/
def firstFree (dc : Word) : Option Slot :=
  if slotFree dc 0 then some 0
  else if slotFree dc 1 then some 1
  else if slotFree dc 2 then some 2
  else if slotFree dc 3 then some 3
  else none

end Sys2Proof.Machine
end

