-- ==== Sys2Proof/Config.lean ====
section
/-! DEFINITION. What an implementation fixes, and the one free value (spec/00_scope.md R5).

Where the rows of R5's table stand: `NSLOT` and `CW` in Word.lean, because the types are built on them;
`AW` and `NINST` here; `EN_W`, `CL_W`, `EN_OFF`, `CL_OFF` and `EN_SET` in Machine/Layout.lean; `WIDTHS` and
`CONDS` as the domains of `legalWidth` and `decCond` in Machine/Operands.lean. -/

namespace Sys2Proof

/-- `AW`, the width of an address, which the spec leaves open as a model argument, 3 or more (R5, D2). `Instr`,
the command word, `State` and every operation on them take it as an argument, `execAt` and `stepAt` among
them; this is the value they have where none is given. `exec`, `step`, `core` and the host's entries have it,
because the host's interface fixes one state type: the width of every test vector of the spec.
DESIGN CHOICE, unsafe: log 1. -/
abbrev Config.aw : Nat := 32

/-- `NINST`, how many controller instances exist at reset (R5, D17). A state may hold any number.
DESIGN CHOICE, unsafe: log 3. -/
abbrev Config.ninst : Nat := 5

/-- How many contexts exist at reset (R123). A state may hold any number. DESIGN CHOICE, unsafe: log 3. -/
abbrev Config.nctx : Nat := 1

/-- The open part of the spec's model parameter `WatchMatch(ctx, access)` (R116, D18): what the processor
answers where the settled points do not decide. FREE VALUE, no body. DESIGN CHOICE, safe: log 7. -/
opaque Config.openMatch {aw : Nat} (ctx : Context aw) (a : Access aw) : Bool

/-- An address at the machine's width. -/
abbrev Addr := BitVec Config.aw

/-- A context at the machine's width. -/
abbrev Ctx := Context Config.aw

end Sys2Proof
end

