-- ==== Sys2Proof/Syntax.lean ====
section
/-! DEFINITION. The commands: one constructor per row of spec/opcode_table.json. -/

namespace Sys2Proof

/-- The abstract commands (R9), and the reserved code of the command word (R61). Operands are held as
presented, legal or not (R8): an illegal width or condition can be written down and is shown rejected. -/
inductive Instr (aw : Nat := Config.aw) where
  /-- ACTIVATE `addr`, `width`, `cond` (R92). `width` is any non-negative integer (R8, D26). -/
  | activate (addr : BitVec aw) (width : Nat) (cond : CondCode)
  /-- DEACTIVATE (R96) -/
  | deactivate
  /-- RELEASE (R98) -/
  | release
  /-- The decoder's answer "invalid" for the reserved code `op` = `00` (R61): it spells no command. -/
  | reservedOp00
  deriving DecidableEq, Repr

end Sys2Proof
end

