-- ==== Sys2Proof/WellFormed.lean ====
section
/-! DEFINITION. Which instructions fit in a command word (spec/30_encoding.md R56). -/

namespace Sys2Proof

/-- The width operand fits the 8-bit field of the command word. R56: an abstract width above 255 cannot be
packed (it is still a command, and behaves as any other illegal width). The address and the condition
fit by their types. -/
def Instr.wellFormed {aw : Nat} : Instr aw → Bool
  | .activate _ width _ => decide (width < 256)
  | .deactivate => true
  | .release => true
  | .reservedOp00 => true

/-- The instruction spells a command (R9, R61). -/
def Instr.isCommand {aw : Nat} : Instr aw → Bool
  | .activate _ _ _ => true
  | .deactivate => true
  | .release => true
  | .reservedOp00 => false

/-- The instruction is RELEASE, the last command of an instance's life (R98, R135). -/
def Instr.isRelease {aw : Nat} : Instr aw → Bool
  | .activate _ _ _ => false
  | .deactivate => false
  | .release => true
  | .reservedOp00 => false

end Sys2Proof
end

