-- ==== Sys2Proof/Decode.lean ====
section
/-! DEFINITION. The command word `CMD` (spec/30_encoding.md R56, R57) at any address width: decoder, encoder, and the entry
the host reads the opcode table through. -/

namespace Sys2Proof

/-- The length of a command word: 12 + `AW` bits (R56). -/
abbrev cmdBits (aw : Nat := Config.aw) : Nat := aw + 12

/-- A command word (R56). -/
abbrev CmdWord (aw : Nat := Config.aw) := BitVec (cmdBits aw)

/-- `op`, bits 1:0 (R56). -/
def opField {aw : Nat} (w : CmdWord aw) : BitVec 2 := w.extractLsb' 0 2

/-- `cond`, bits 3:2 (R56). -/
def condField {aw : Nat} (w : CmdWord aw) : CondCode := w.extractLsb' 2 2

/-- `width`, bits 11:4, an unsigned byte count (R56). -/
def widthField {aw : Nat} (w : CmdWord aw) : Nat := (w.extractLsb' 4 8).toNat

/-- `addr`, bits 11+`AW`:12 (R56). -/
def addrField {aw : Nat} (w : CmdWord aw) : BitVec aw := w.extractLsb' 12 aw

/-- The decoder of command words (R57), total (R61). It refuses `op` = `00` by name: that code is read as
`reservedOp00`, which spells no command. The operand fields of DEACTIVATE and RELEASE are ignored. -/
def decode {aw : Nat} (w : CmdWord aw) : Instr aw :=
  match opField w with
  | 0b01#2 => .activate (addrField w) (widthField w) (condField w)
  | 0b10#2 => .deactivate
  | 0b11#2 => .release
  | _ => .reservedOp00

/-- The four fields put together, `addr` uppermost and `op` lowest (R56). -/
def packCmd {aw : Nat} (addr : BitVec aw) (width : BitVec 8) (cond : CondCode) (op : BitVec 2) : CmdWord aw :=
  addr ++ width ++ cond ++ op

/-- The `op` code of an instruction (R57). -/
def opCode {aw : Nat} : Instr aw → BitVec 2
  | .activate _ _ _ => 0b01#2
  | .deactivate => 0b10#2
  | .release => 0b11#2
  | .reservedOp00 => 0b00#2

/-- The encoder (R56, R57): the word of a well-formed instruction. The fields a command does not use are
written as 0 (R57). -/
def encode {aw : Nat} : Instr aw → CmdWord aw
  | .activate addr width cond => packCmd addr (BitVec.ofNat 8 width) cond 0b01#2
  | .deactivate => packCmd 0#aw 0#8 0#2 0b10#2
  | .release => packCmd 0#aw 0#8 0#2 0b11#2
  | .reservedOp00 => packCmd 0#aw 0#8 0#2 0b00#2

/-- The command word whose low `nbits` bits are those of `w` and whose other bits are 0. -/
def tableWord {aw : Nat} (nbits w : Nat) : CmdWord aw := BitVec.ofNat (cmdBits aw) (w % 2 ^ nbits)

/-- What the decoder reads from a word given in the numbering of spec/opcode_table.json. -/
def decodeTableWord (nbits w : Nat) : Option Instr := some (decode (aw := Config.aw) (tableWord nbits w))

end Sys2Proof
end

