-- ==== Sys2Proof/Machine/State.lean ====
section
/-! DEFINITION. The machine's state as plain data (spec/10_state.md), what a command gives back
(spec/42_commands.md R86), the inputs of the outside world, and the reasons a step can stop. -/

namespace Sys2Proof.Machine

/-- `Result` of R8: what a command reports. It is not stored in the block (R26). -/
inductive Result where
  | ok
  | invalidBreakpointRequest
  deriving DecidableEq, Repr

/-- One accessor event (R31, R32). -/
inductive CtxEvent where
  | get
  | set
  deriving DecidableEq, Repr

/-- What the host observes of one input (R37, R86, R115). -/
inductive Obs (aw : Nat := Config.aw) where
  /-- Command `i` of instance `inst` ended with this result and these accessor events, in order. -/
  | command (inst : Nat) (i : Instr aw) (result : Result) (events : List CtxEvent)
  /-- An access made in context `ctx` was evaluated; `trap` says whether the hardware trap was raised. -/
  | access (ctx : Nat) (a : Access aw) (trap : Bool)
  deriving DecidableEq, Repr

/-- One thing the outside world does to the machine, always between two commands (R40, R41). -/
inductive Input (aw : Nat := Config.aw) where
  /-- The host presents a command word to instance `inst` (R56). -/
  | word (inst : Nat) (w : CmdWord aw)
  /-- The host presents an abstract command to instance `inst` (R9); its width need not fit a word. -/
  | call (inst : Nat) (i : Instr aw)
  /-- Reset (creation) of instance `inst` (R130). -/
  | reset (inst : Nat)
  /-- `ENV: DC <- v` in context `ctx` (R62): another agent writes the control register. -/
  | foreignDc (ctx : Nat) (v : Word)
  /-- `ENV: DA[s] <- v` in context `ctx` (R62): another agent writes an address register. -/
  | foreignDa (ctx : Nat) (s : Slot) (v : BitVec aw)
  /-- The processor makes an access in context `ctx` (R115, R116). -/
  | access (ctx : Nat) (a : Access aw)
  deriving DecidableEq, Repr

/-- One controller instance: its only register, and the context it is bound to for its whole life
(R10, R133, R123). -/
structure Instance where
  /-- `SLOT` (R11) -/
  slot : SlotIndex
  /-- The number of the context the instance is bound to. -/
  ctx : Nat
  deriving DecidableEq, Repr

/-- The whole machine: every instance, every context, and the outside world's side of the interface, at an address
width `aw`. -/
structure State (aw : Nat := Config.aw) where
  /-- The controller instances, `NINST` of them (R122). -/
  insts : List Instance
  /-- The contexts (R23, R123). -/
  ctxs : List (Context aw)
  /-- The instance the command being executed was presented to. MODEL'S OWN: log 4. -/
  cur : Nat
  /-- The host's list of inputs still to come, the next one first (R25). MODEL'S OWN: log 4. -/
  inputs : List (Input aw)
  /-- What the host has observed, the latest first: the owner's record of each instance's life too (R135).
  MODEL'S OWN: log 5, log 11. -/
  log : List (Obs aw)
  deriving DecidableEq, Repr

/-- The reasons the machine can stop with a fault. None is a fault of the spec: the block itself has no
fatal error (R110). Both stop at an input no well-formed host gives. -/
inductive Fault where
  /-- Raised by every input and every command meant for an instance the machine does not have. Safe (log 13). -/
  | noSuchInstance
  /-- Raised by every input and every command that needs a context the machine does not have, an instance
  bound to none among them (R133). Safe (log 13). -/
  | noSuchContext
  deriving DecidableEq, Repr

/-- The reasons the machine refuses an input. -/
inductive Refusal where
  /-- Raised by no arm of `exec` any more: an instruction not modelled yet would be refused so. Safe. -/
  | notModelled (mnemonic : String)
  /-- Raised by RESERVED_OP00: the code spells no command and a model refuses it (R61). Safe (log 12). -/
  | reservedCommandCode
  /-- Raised by a reset input for an instance that is Armed, or whose life has begun and has not been ended by RELEASE:
  a breach of the owner's obligation, which a model does not admit (R131, R135, U9). Safe (log 11). -/
  | resetDuringLife
  deriving DecidableEq, Repr

/-- The context at reset. The spec gives no value (R27, D15): the start of its worked examples, all zeros.
DESIGN CHOICE, unsafe: log 2. -/
def resetContext {aw : Nat} : Context aw := ⟨#v[0#aw, 0#aw, 0#aw, 0#aw], 0#CW⟩

/-- The machine right after reset, at any address width: every instance Unarmed (R27, R130), nothing presented,
nothing observed. The numbers of instances and contexts and the binding are DESIGN CHOICE, unsafe: log 3. -/
def State.resetAt {aw : Nat} : State aw where
  insts := List.replicate Config.ninst ⟨none, 0⟩
  ctxs := List.replicate Config.nctx resetContext
  cur := 0
  inputs := []
  log := []

/-- The machine right after reset. -/
def State.reset : State := State.resetAt

end Sys2Proof.Machine
end

