-- ==== Sys2Proof/Machine/Ops.lean ====
section
/-! DEFINITION. The named operations the commands are written with: the accessor pair
(spec/20_memory.md R31, R32), the context's registers, raising the block's one error (spec/00_scope.md R7),
and the updates of the machine's state. -/

namespace Sys2Proof.Machine

/-! ### The context's registers -/

/-- The value of `DA[s]` (R13). -/
def daOf {aw : Nat} (c : Context aw) (s : Slot) : BitVec aw := c.da[s]

/-- `DA[s] <- v` (R13): the whole register, no other register (R51). -/
def writeDa {aw : Nat} (c : Context aw) (s : Slot) (v : BitVec aw) : Context aw :=
  { c with da := c.da.set s v }

/-- `DC <- v` (R15). -/
def writeDc {aw : Nat} (c : Context aw) (v : Word) : Context aw := { c with dc := v }

/-! ### The accessor -/

/-- What a command has to do with its execution context: the context as it stands, and the accessor events
recorded so far, in order (R31, R32, R37). -/
structure Bus (aw : Nat) where
  ctx : Context aw
  events : List CtxEvent
  deriving DecidableEq, Repr

/-- `CtxGet()` (R31): the whole context; one Get event; the context is unchanged. -/
def ctxGet {aw : Nat} (b : Bus aw) : Context aw × Bus aw :=
  (b.ctx, { b with events := b.events ++ [.get] })

/-- `CtxSet(c)` (R32): the whole context replaced; one Set event. -/
def ctxSet {aw : Nat} (c : Context aw) (b : Bus aw) : Bus aw :=
  { ctx := c, events := b.events ++ [.set] }

/-! ### What a command gives back, and the block's one error -/

/-- The output of a command's step (R86): `SLOT'`, the context' and the events, the result. -/
structure CommandOut (aw : Nat) where
  slot : SlotIndex
  bus : Bus aw
  result : Result
  deriving DecidableEq, Repr

/-- `raise InvalidBreakpointRequest` (R7, R110, R119): the result says so, no state element is written, no
Set event is recorded, and the command ends. Nothing is saved and control goes nowhere. Every error of
the block is taken here. There is nothing to return from (R120). -/
def raiseInvalid {aw : Nat} (slot : SlotIndex) (b : Bus aw) : CommandOut aw :=
  { slot := slot, bus := b, result := .invalidBreakpointRequest }

/-- `result <- OK` with `SLOT <- slot`. -/
def finishOk {aw : Nat} (slot : SlotIndex) (b : Bus aw) : CommandOut aw :=
  { slot := slot, bus := b, result := .ok }

/-- `RES`, the result code (R58). -/
def resultCode : Result → BitVec 1
  | .ok => 0b0#1
  | .invalidBreakpointRequest => 0b1#1

/-! ### The state -/

/-- The side-effect-free read of an instance's `SLOT` (R11); `none` where there is no such instance. -/
def readSlot {aw : Nat} (s : State aw) (n : Nat) : Option SlotIndex := (s.insts[n]?).map Instance.slot

/-- `SLOT <- v` of instance `n`; its binding is unchanged (R123). -/
def writeSlot {aw : Nat} (s : State aw) (n : Nat) (v : SlotIndex) : State aw :=
  { s with insts := s.insts.modify n (fun x => { x with slot := v }) }

/-- Context `k` replaced by `c`. -/
def writeCtx {aw : Nat} (s : State aw) (k : Nat) (c : Context aw) : State aw := { s with ctxs := s.ctxs.set k c }

/-- One more observation, the latest first. -/
def record {aw : Nat} (s : State aw) (o : Obs aw) : State aw := { s with log := o :: s.log }

/-- The next input taken off the host's list, and the instance it is for. -/
def present {aw : Nat} (s : State aw) (n : Nat) (rest : List (Input aw)) : State aw :=
  { s with cur := n, inputs := rest }

/-- Instance `n` with the context it is bound to, both found. -/
def bound {aw : Nat} (s : State aw) (n : Nat) (x : Instance) (c : Context aw) : Prop :=
  s.insts[n]? = some x ∧ s.ctxs[x.ctx]? = some c

/-- The life of instance `n` has begun and has not been ended by RELEASE, by the owner's record of the commands it
presented: the latest of them is there and is not RELEASE (R98, R131, R135; log 11). -/
def inLife {aw : Nat} (n : Nat) : List (Obs aw) → Bool
  | [] => false
  | .command m i _ _ :: l => if m = n then !i.isRelease else inLife n l
  | .access _ _ _ :: l => inLife n l

/-- The state after command `i` of the current instance, bound to context `k`, gave `o`: `SLOT` and the context
are written together (R35), and the result and the events are observed (R86). -/
def commit {aw : Nat} (s : State aw) (k : Nat) (i : Instr aw) (o : CommandOut aw) : State aw :=
  record (writeCtx (writeSlot s s.cur o.slot) k o.bus.ctx) (.command s.cur i o.result o.bus.events)

/-- Command `i` as one atomic step of the current instance on the context it is bound to (R35, R86): its function
of `SLOT` and the accessor is run to its end and its output committed. -/
def runCommand {aw : Nat} (i : Instr aw) (f : SlotIndex → Bus aw → CommandOut aw) (s : State aw) :
    Host.Outcome (State aw) Fault Refusal :=
  match s.insts[s.cur]? with
  | none => .fault .noSuchInstance
  | some x =>
    match s.ctxs[x.ctx]? with
    | none => .fault .noSuchContext
    | some c => .next (commit s x.ctx i (f x.slot ⟨c, []⟩))

end Sys2Proof.Machine
end

