-- ==== Sys2Proof/Machine/Commands.lean ====
section
/-! DEFINITION. The commands ACTIVATE, DEACTIVATE and RELEASE (spec/42_commands.md R92, R96, R98), each as the
function of R86 at any address width, and the meaning of every instruction. -/

namespace Sys2Proof.Machine

/-- Step 1 of R92 on the local copy of the image: the slot held, if any, is given up. -/
def releasedImage (slot : SlotIndex) (dc : Word) : Word :=
  match slot with
  | none => dc
  | some t => clearEnable dc t

/-- ACTIVATE `a`, `w`, `c` (R92). -/
def activate {aw : Nat} (a : BitVec aw) (w : Nat) (c : CondCode) (slot : SlotIndex) (b : Bus aw) :
    CommandOut aw :=
  match request a w c with
  | none => raiseInvalid slot b
  | some r =>
    let (ctx, b1) := ctxGet b
    let dc0 := releasedImage slot ctx.dc
    match firstFree dc0 with
    | none => raiseInvalid slot b1
    | some s =>
      let ctx1 := writeDa ctx s r.addr
      let ctx2 := writeDc ctx1 (packSlot dc0 s r.width r.cond)
      finishOk (some s) (ctxSet ctx2 b1)

/-- DEACTIVATE (R96). -/
def deactivate {aw : Nat} (slot : SlotIndex) (b : Bus aw) : CommandOut aw :=
  match slot with
  | none => finishOk none b
  | some t =>
    let (ctx, b1) := ctxGet b
    finishOk none (ctxSet (writeDc ctx (clearEnable ctx.dc t)) b1)

/-- RELEASE (R98): `RELEASE() = DEACTIVATE()`. -/
def release {aw : Nat} (slot : SlotIndex) (b : Bus aw) : CommandOut aw := deactivate slot b

/-- The meaning of ACTIVATE (R92). -/
def execActivate {aw : Nat} (a : BitVec aw) (w : Nat) (c : CondCode) (s : State aw) :
    Host.Outcome (State aw) Fault Refusal :=
  runCommand (.activate a w c) (activate a w c) s

/-- The meaning of DEACTIVATE (R96). -/
def execDeactivate {aw : Nat} (s : State aw) : Host.Outcome (State aw) Fault Refusal :=
  runCommand .deactivate deactivate s

/-- The meaning of RELEASE (R98). -/
def execRelease {aw : Nat} (s : State aw) : Host.Outcome (State aw) Fault Refusal := runCommand .release release s

/-- The reserved code is refused rather than given the meaning of a no-op (R61). -/
def execReservedOp00 {aw : Nat} (_ : State aw) : Host.Outcome (State aw) Fault Refusal :=
  .refused .reservedCommandCode

/-- The meaning of every instruction at any address width (R5); `exec` of Machine/Dispatch.lean is it at the width
the host's interface fixes. -/
def execAt {aw : Nat} (i : Instr aw) (s : State aw) : Host.Outcome (State aw) Fault Refusal :=
  match i with
  | .activate a w c => execActivate a w c s
  | .deactivate => execDeactivate s
  | .release => execRelease s
  | .reservedOp00 => execReservedOp00 s

end Sys2Proof.Machine
end

