-- ==== Sys2Proof/Machine/Dispatch.lean ====
section
/-! DEFINITION. One arm per constructor of Instr. -/

namespace Sys2Proof.Machine

def exec (i : Instr) (s : State) : Host.Outcome State Fault Refusal :=
  match i with
  | .activate addr width cond => Sys2Proof.Machine.execActivate addr width cond s
  | .deactivate => Sys2Proof.Machine.execDeactivate s
  | .release => Sys2Proof.Machine.execRelease s
  | .reservedOp00 => Sys2Proof.Machine.execReservedOp00 s

end Sys2Proof.Machine
end

