-- ==== Sys2Proof/Machine/Watch.lean ====
section
/-! DEFINITION. When the processor's watchpoint trap is raised (spec/60_exceptions.md R115, R116): the points the
spec settles, and the open parameter `WatchMatch` for the rest (log 7). -/

namespace Sys2Proof.Machine

/-- What the settled points say: the slot matches, it does not, or they leave it open. -/
inductive Settled where
  | yes
  | no
  | unsettled
  deriving DecidableEq, Repr

/-- All of several points hold: one settled `no` decides, and `yes` needs every point settled so. -/
def Settled.and : Settled → Settled → Settled
  | .no, _ => .no
  | _, .no => .no
  | .yes, .yes => .yes
  | _, _ => .unsettled

/-- One of several slots matches: one settled `yes` decides, and `no` needs every slot settled so. -/
def Settled.or : Settled → Settled → Settled
  | .yes, _ => .yes
  | _, .yes => .yes
  | .no, .no => .no
  | _, _ => .unsettled

/-- R116: a slot matches only while its enable field is non-zero. What the processor does with `10` and `11`
is any value (U4). -/
def matchEnable (en : BitVec 2) : Settled :=
  match en with
  | 0b00#2 => .no
  | 0b01#2 => .yes
  | _ => .unsettled

/-- R116: `01` matches writes only, `11` reads and writes; neither matches an instruction fetch. -/
def matchKind (c : Condition) (k : AccessKind) : Settled :=
  match c, k with
  | .write, .write => .yes
  | .readOrWrite, .read => .yes
  | .readOrWrite, .write => .yes
  | _, _ => .no

/-- The bytes `a .. a+n-1` of an access against the watched bytes `d .. d+w-1` (R116, R38): the same bytes
match, no common byte is no match, and an overlap only in part is open. The two addresses are compared number
for number: what translation the processor applies before, virtual or physical, the spec leaves open (R44), and
`a` is the address that comes out of it. DESIGN CHOICE, unsafe: log 18. A watch no ACTIVATE can write,
misaligned for its width, is open too (U11), and so is an access of no bytes or one that runs past the top
of the address space, which the spec does not speak of. -/
def matchRange {aw : Nat} (d : BitVec aw) (w : Width) (a : BitVec aw) (n : Nat) : Settled :=
  if d.toNat % widthBytes w ≠ 0 ∨ n = 0 ∨ 2 ^ aw < a.toNat + n then .unsettled
  else if a.toNat = d.toNat ∧ n = widthBytes w then .yes
  else if a.toNat + n ≤ d.toNat ∨ d.toNat + widthBytes w ≤ a.toNat then .no
  else .unsettled

/-- Whether an access matches slot `s` (R116). A `COND` code the spec gives no meaning leaves it open (U3), and
so does such a `LEN` code unless the kind of access already decides. -/
def slotMatch {aw : Nat} (c : Context aw) (s : Slot) (a : Access aw) : Settled :=
  let watch :=
    match decCond (condOf c.dc s), decLen (lenOf c.dc s) with
    | none, _ => .unsettled
    | some cond, none => (matchKind cond a.kind).and .unsettled
    | some cond, some w => (matchKind cond a.kind).and (matchRange (daOf c s) w a.addr a.size)
  (matchEnable (enOf c.dc s)).and watch

/-- The settled points over all four slots. -/
def settledMatch {aw : Nat} (c : Context aw) (a : Access aw) : Settled :=
  ((slotMatch c 0 a).or (slotMatch c 1 a)).or ((slotMatch c 2 a).or (slotMatch c 3 a))

/-- Slot `s` as a reader sees it: while it is disabled, its address register and its condition+length field
are masked off (R14, U2). -/
def maskSlot {aw : Nat} (s : Slot) (c : Context aw) : Context aw :=
  if slotFree c.dc s then writeDc (writeDa c s 0#aw) (setBits c.dc (clOff s) clW 0) else c

/-- The context with every disabled slot masked off. -/
def maskOff {aw : Nat} (c : Context aw) : Context aw := maskSlot 3 (maskSlot 2 (maskSlot 1 (maskSlot 0 c)))

/-- `WatchMatch(ctx, access)` (R116, D18): the settled points where they decide, and where they do not, the free
value at what the context shows. -/
def watchMatch {aw : Nat} (c : Context aw) (a : Access aw) : Bool :=
  match settledMatch c a with
  | .yes => true
  | .no => false
  | .unsettled => Config.openMatch (maskOff c) a

end Sys2Proof.Machine
end

