-- ==== Sys2Proof/Machine/Inputs.lean ====
section
/-! DEFINITION. What the outside world does to the machine besides presenting commands: reset
(spec/70_reset_and_hazards.md R130, R131), foreign writes (spec/30_encoding.md R62, spec/10_state.md R23), accesses
of the processor (spec/60_exceptions.md R115); the pseudo-commands (spec/30_encoding.md R63); and one step over
the list of inputs, at any address width. -/

namespace Sys2Proof.Machine

/-- What reset (creation) of instance `n` does, from any state of it (R130, R99's last row): `SLOT <- -1` and nothing
else. On an Armed instance it forgets the reservation and leaves the slot enabled (R131). -/
def resetInstance {aw : Nat} (n : Nat) (s : State aw) : Host.Outcome (State aw) Fault Refusal :=
  match s.insts[n]? with
  | none => .fault .noSuchInstance
  | some _ => .next (writeSlot s n none)

/-- Reset of instance `n`, which is `x`, is admitted: at the start of its life or after RELEASE, and never while it
is Armed (R131; log 11). -/
def resetAdmitted {aw : Nat} (s : State aw) (n : Nat) (x : Instance) : Bool := x.slot.isNone && !inLife n s.log

/-- A reset input: the reset where it is admitted, and where it is not, a breach of R135 that is refused (R131, U9). -/
def createInstance {aw : Nat} (n : Nat) (s : State aw) : Host.Outcome (State aw) Fault Refusal :=
  match s.insts[n]? with
  | none => .fault .noSuchInstance
  | some x => if resetAdmitted s n x then resetInstance n s else .refused .resetDuringLife

/-- A write to context `k` by an agent that is not the block (R23, D21). -/
def foreignWrite {aw : Nat} (k : Nat) (f : Context aw → Context aw) (s : State aw) :
    Host.Outcome (State aw) Fault Refusal :=
  match s.ctxs[k]? with
  | none => .fault .noSuchContext
  | some c => .next (writeCtx s k (f c))

/-- `ENV: DC <- v` (R62). -/
def foreignWriteDc {aw : Nat} (k : Nat) (v : Word) (s : State aw) : Host.Outcome (State aw) Fault Refusal :=
  foreignWrite k (fun c => writeDc c v) s

/-- `ENV: DA[n] <- v` (R62). -/
def foreignWriteDa {aw : Nat} (k : Nat) (n : Slot) (v : BitVec aw) (s : State aw) :
    Host.Outcome (State aw) Fault Refusal :=
  foreignWrite k (fun c => writeDa c n v) s

/-- The processor evaluates an access against context `k` as it stands and raises the trap or not (R115, R42).
No register of the context changes; delivery of the trap is out of scope (R4 (b); log 7). -/
def evaluateAccess {aw : Nat} (k : Nat) (a : Access aw) (s : State aw) : Host.Outcome (State aw) Fault Refusal :=
  match s.ctxs[k]? with
  | none => .fault .noSuchContext
  | some c => .next (record s (.access k a (watchMatch c a)))

/-- `CONSTRUCT` (R63 (a), R132): reset of the instance followed at once by ACTIVATE. -/
def construct {aw : Nat} (n : Nat) (a : BitVec aw) (w : Nat) (c : CondCode) : List (Input aw) :=
  [.reset n, .call n (.activate a w c)]

/-- `REARM` (R63 (b)): ACTIVATE with the same operands. -/
def rearm {aw : Nat} (n : Nat) (a : BitVec aw) (w : Nat) (c : CondCode) : List (Input aw) :=
  [.call n (.activate a w c)]

/-- `END` (R63 (c)): RELEASE. -/
def endOfLife {aw : Nat} (n : Nat) : List (Input aw) := [.call n .release]

/-- One step, given the meanings of the instructions: the next input of the host's list takes effect whole (R40,
R41, R86). With nothing presented the block waits, ready for the next command (R25): the state stays. -/
def stepWith {aw : Nat} (ex : Instr aw → State aw → Host.Outcome (State aw) Fault Refusal) (s : State aw) :
    Host.Outcome (State aw) Fault Refusal :=
  match s.inputs with
  | [] => .next s
  | .word n w :: rest => ex (decode w) (present s n rest)
  | .call n i :: rest => ex i (present s n rest)
  | .reset n :: rest => createInstance n (present s s.cur rest)
  | .foreignDc k v :: rest => foreignWriteDc k v (present s s.cur rest)
  | .foreignDa k n v :: rest => foreignWriteDa k n v (present s s.cur rest)
  | .access k a :: rest => evaluateAccess k a (present s s.cur rest)

/-- One step of the machine at any address width (R5). -/
def stepAt {aw : Nat} (s : State aw) : Host.Outcome (State aw) Fault Refusal := stepWith execAt s

end Sys2Proof.Machine
end

