-- ==== Sys2Proof/Machine/Step.lean ====
section
/-! DEFINITION. One step of the machine at the width the host's interface fixes, and the host's entry for one
command word. -/

namespace Sys2Proof.Machine

/-- One step (R40, R41, R86): `stepWith` over `exec`. -/
def step (s : State) : Host.Outcome State Fault Refusal := stepWith exec s

/-- The state with the table's word presented next, to the current instance: the load of a one-command
program from outside (R25; log 4). -/
def State.withFetchWord (s : State) (nbits w : Nat) : State :=
  { s with inputs := .word s.cur (tableWord nbits w) :: s.inputs }

end Sys2Proof.Machine
end

