-- ==== Sys2Proof/Safety.lean ====
section
/-! DEFINITION. What the caller owes (spec/70_reset_and_hazards.md R131, R133, R135, R139) and the invariants a
coordinated run keeps (spec/41_slot_allocator.md R83 (e)). -/

namespace Sys2Proof.Safety

open Sys2Proof.Machine

/-- Every instance is bound to a context that exists (R133). -/
def allBound {aw : Nat} (s : State aw) : Prop := ∀ x ∈ s.insts, x.ctx < s.ctxs.length

/-- Every slot an instance holds shows as occupied in its context (R82). -/
def owned {aw : Nat} (s : State aw) : Prop :=
  ∀ x ∈ s.insts, ∀ c, s.ctxs[x.ctx]? = some c → ∀ t, x.slot = some t → slotFree c.dc t = false

/-- No two instances on one context hold the same slot (R83 (e)). -/
def exclusive {aw : Nat} (s : State aw) : Prop :=
  ∀ (i j : Nat) (x y : Instance), i ≠ j → s.insts[i]? = some x → s.insts[j]? = some y → x.ctx = y.ctx →
    ∀ t, x.slot = some t → y.slot ≠ some t

/-- The invariant of coordinated use. -/
def ownership {aw : Nat} (s : State aw) : Prop := owned s ∧ exclusive s

/-- An input the caller's coordination allows in state `s`: an instance is reset only at the start of its life or
after RELEASE (R131, R135), and no foreign write frees a slot that an instance holds (R139). Commands, accesses and
foreign writes of address registers are always allowed. -/
def coordinated {aw : Nat} (s : State aw) : Input aw → Prop
  | .word _ _ => True
  | .call _ _ => True
  | .reset n => readSlot s n = some none ∧ inLife n s.log = false
  | .foreignDc k v => ∀ x ∈ s.insts, x.ctx = k → ∀ t, x.slot = some t → slotFree v t = false
  | .foreignDa _ _ _ => True
  | .access _ _ => True

/-- The command an input presents to instance `n`, as a word or abstractly. -/
def commandFor {aw : Nat} (n : Nat) : Input aw → Option (Instr aw)
  | .word m w => if m = n then some (decode w) else none
  | .call m i => if m = n then some i else none
  | .reset _ => none
  | .foreignDc _ _ => none
  | .foreignDa _ _ _ => none
  | .access _ _ => none

/-- The inputs are whole lives of instance `n`, given whether one is under way before them: each reset of `n` stands
at the start of a life or after RELEASE, and the last command for `n` is RELEASE (R131, R135, R100). -/
def wholeLives {aw : Nat} (n : Nat) : Bool → List (Input aw) → Bool
  | live, [] => !live
  | live, inp :: rest =>
    match commandFor n inp with
    | some i => wholeLives n (!i.isRelease) rest
    | none => !(live && inp == .reset n) && wholeLives n live rest

/-- An instance is Armed only during its life (R12, R98). -/
def armedInLife {aw : Nat} (s : State aw) : Prop :=
  ∀ (n : Nat) (x : Instance), s.insts[n]? = some x → x.slot ≠ none → inLife n s.log = true

/-- What the owners still owe their instances, the host's list of inputs pays (R131, R135): every instance is Armed
only during its life, and the list completes every life. -/
def lifetimes {aw : Nat} (s : State aw) : Prop :=
  armedInLife s ∧ ∀ n, wholeLives n (inLife n s.log) s.inputs = true

/-- An input that names only what the machine has, spells a command where it is one, and is no reset during a life
(R133, R61, R131). -/
def addressed {aw : Nat} (s : State aw) : Input aw → Prop
  | .word n w => n < s.insts.length ∧ (decode w).isCommand = true
  | .call n i => n < s.insts.length ∧ i.isCommand = true
  | .reset n => n < s.insts.length ∧ readSlot s n = some none ∧ inLife n s.log = false
  | .foreignDc k _ => k < s.ctxs.length
  | .foreignDa k _ _ => k < s.ctxs.length
  | .access k _ => k < s.ctxs.length

end Sys2Proof.Safety
end

