-- ==== Sys2Proof/Certificates/Slice0/Obligations.lean ====
section
/-! DEFINITION. The statements for the provers. Each docstring names the part of spec/ it formalises. Where it
rests on a decision or an inference the spec marks as its own, or on an entry of the assumption log, the
docstring says so. -/

open Sys2Proof Sys2Proof.Machine

/-! ### Command words -/

/-- 30_encoding.md, section 4: encoding loses nothing, at any address width. Rests on the spec's decision D12 (the
command word). -/
def Obligations.DecodeOfEncode : Prop :=
  ∀ (aw : Nat) (i : Instr aw), i.wellFormed = true → decode (encode i) = i

/-- 30_encoding.md, section 4, at any address width: where each field of a command word lies, what each `op` code is,
what an encoder writes to unused fields, and which widths cannot be packed. Rests on the spec's decisions D12,
D26. -/
def Obligations.CommandWordFields : Prop :=
  ∀ aw : Nat,
    (∀ (a : BitVec aw) (w : Nat) (c op : BitVec 2), w < 256 →
      decode (aw := aw) (BitVec.ofNat (cmdBits aw) (op.toNat + 4 * c.toNat + 16 * w + 4096 * a.toNat)) =
        if op = 1#2 then .activate a w c
        else if op = 2#2 then .deactivate
        else if op = 3#2 then .release
        else .reservedOp00) ∧
    (∀ (a : BitVec aw) (w : Nat) (c : BitVec 2), w < 256 →
      encode (.activate a w c) = BitVec.ofNat (cmdBits aw) (1 + 4 * c.toNat + 16 * w + 4096 * a.toNat)) ∧
    encode (aw := aw) .deactivate = BitVec.ofNat (cmdBits aw) 2 ∧
    encode (aw := aw) .release = BitVec.ofNat (cmdBits aw) 3 ∧
    (∀ (a : BitVec aw) (w : Nat) (c : BitVec 2), 255 < w →
      (Instr.activate a w c).wellFormed = false ∧ valid a w c = false)

/-- 95_test_vectors.md, S1, S2, P1, P2, P3: words written out in the spec. -/
def Obligations.TestVectorWordsDecode : Prop :=
  decode 0x00001000045#cmdBits = .activate 0x1000#32 4 0b01#2 ∧
  decode 0x0000100202D#cmdBits = .activate 0x1002#32 2 0b11#2 ∧
  decode 0x7FFFFFFC04D#cmdBits = .activate 0x7FFFFFFC#32 4 0b11#2 ∧
  decode 0x00001000041#cmdBits = .activate 0x1000#32 4 0b00#2 ∧
  decode 0x00000000002#cmdBits = .deactivate ∧
  decode 0x00000000003#cmdBits = .release

/-- 10_state.md, section 6 (the block performs the command the host presents, and waits when none is), with the
model's own `cur` and `inputs` (log 4): a step takes the next input off the list, notes which instance it is
for, and is `exec` of the decoded instruction. -/
def Obligations.StepRunsPresentedCommand : Prop :=
  (∀ (s : State) (n : Nat) (w : CmdWord) (rest : List Input), s.inputs = .word n w :: rest →
    step s = exec (decode w) { s with cur := n, inputs := rest }) ∧
  (∀ (s : State) (n : Nat) (i : Instr) (rest : List Input), s.inputs = .call n i :: rest →
    step s = exec i { s with cur := n, inputs := rest }) ∧
  (∀ s : State, s.inputs = [] → step s = .next s)

/-- R61: the reserved code is refused, however its other fields stand, and gets no meaning. -/
def Obligations.ReservedCodeRefused : Prop :=
  (∀ s : State, exec .reservedOp00 s = .refused .reservedCommandCode) ∧
  (∀ w : CmdWord, w.toNat % 4 = 0 → decode w = .reservedOp00) ∧
  (∀ (s : State) (n : Nat) (w : CmdWord) (rest : List Input),
    s.inputs = .word n w :: rest → w.toNat % 4 = 0 → step s = .refused .reservedCommandCode)

/-! ### The encoder's functions -/

/-- 40_encoder_primitives.md, section 1, SETBITS: the word read as three groups of digits, the middle one
replaced, cut to 32 bits; then its corner cases and its example. Outside the intended domain this rests
on the spec's decision D11. -/
def Obligations.SetBitsReplacesOneRange : Prop :=
  (∀ (word : Word) (pos n v : Nat),
    (setBits word pos n v).toNat =
      (word.toNat % 2 ^ pos + 2 ^ pos * (v % 2 ^ n) + 2 ^ (pos + n) * (word.toNat / 2 ^ (pos + n))) % 2 ^ 32) ∧
  (∀ (word : Word) (pos v : Nat), setBits word pos 0 v = word) ∧
  (∀ (word : Word) (pos n v : Nat), 32 ≤ pos → setBits word pos n v = word) ∧
  setBits 0x12345678#32 20 4 0x7 = 0x12745678#32

/-- 40_encoder_primitives.md, section 1, the five laws of SETBITS (which the spec derives from its definition):
outside bits, read-back, idempotence, last write wins, disjoint merges commute. -/
def Obligations.SetBitsLaws : Prop :=
  (∀ (word : Word) (pos n v i : Nat), i < 32 → ¬ (pos ≤ i ∧ i < pos + n) →
    (setBits word pos n v).getLsbD i = word.getLsbD i) ∧
  (∀ (word : Word) (pos n v : Nat), 1 ≤ n → pos + n ≤ 32 →
    ((setBits word pos n v).extractLsb' pos n).toNat = v % 2 ^ n) ∧
  (∀ (word : Word) (pos n v : Nat), setBits (setBits word pos n v) pos n v = setBits word pos n v) ∧
  (∀ (word : Word) (p n u v : Nat), setBits (setBits word p n u) p n v = setBits word p n v) ∧
  (∀ (word : Word) (p n u q m v : Nat), p + n ≤ q ∨ q + m ≤ p →
    setBits (setBits word p n u) q m v = setBits (setBits word q m v) p n u)

/-- R72, R73: the two code tables, the condition codes their own encoding, and nothing else legal: no width but
1, 2, 4 and no code but `01`, `11` ever reaches the encoder. -/
def Obligations.ConditionAndLengthCodes : Prop :=
  encCond .write = 0b01#2 ∧ encCond .readOrWrite = 0b11#2 ∧
  encLen .one = 0b00#2 ∧ encLen .two = 0b01#2 ∧ encLen .four = 0b11#2 ∧
  (∀ (c : CondCode) (lc : Condition), decCond c = some lc → encCond lc = c) ∧
  decCond 0b00#2 = none ∧ decCond 0b10#2 = none ∧
  (∀ (w : Nat) (lw : Width), legalWidth w = some lw → w = 1 ∧ lw = .one ∨ w = 2 ∧ lw = .two ∨ w = 4 ∧ lw = .four)

/-- 40_encoder_primitives.md, sections 2 and 5: the condition+length field is 4·LEN + COND, and the decoders
invert the encoders. The order in the field is the spec's decision D5 (log 8). -/
def Obligations.ConditionLengthField : Prop :=
  (∀ (w : Width) (c : Condition), (encCl w c).toNat = 4 * (encLen w).toNat + (encCond c).toNat ∧
    (encCl w c).getLsbD 0 = true) ∧
  (∀ w : Width, decLen (encLen w) = some w) ∧ decLen 0b10#2 = none ∧
  (∀ c : Condition, decCond (encCond c) = some c) ∧
  (∀ (dc : Word) (s : Slot), clOf dc s = lenOf dc s ++ condOf dc s ∧ lOf dc s = (enOf dc s).getLsbD 0)

/-- 10_state.md, section 4: the fields of two slots share no bit, lie inside the word, and leave bits 15:8 to no
slot. The offsets are the spec's decision D4 (log 8). -/
def Obligations.SlotFieldsDisjoint : Prop :=
  (∀ s : Slot, enOff s = 2 * s.val ∧ clOff s = 16 + 4 * s.val ∧ enOff s + 2 ≤ 8 ∧ 16 ≤ clOff s ∧ clOff s + 4 ≤ 32) ∧
  (∀ s t : Slot, s ≠ t →
    (enOff s + 2 ≤ enOff t ∨ enOff t + 2 ≤ enOff s) ∧ (clOff s + 4 ≤ clOff t ∨ clOff t + 4 ≤ clOff s))

/-- 40_encoder_primitives.md, section 4, PACK_SLOT: its closed form, and that the order of its two merges does not
matter. Rests on the spec's decisions D4, D6 (log 8). -/
def Obligations.PackSlotClosedForm : Prop :=
  ∀ (dc : Word) (s : Slot) (w : Width) (c : Condition),
    packSlot dc s w c =
      (dc &&& ~~~(0xF#32 <<< (16 + 4 * s.val)) &&& ~~~(0x3#32 <<< (2 * s.val)))
        ||| ((encCl w c).zeroExtend 32 <<< (16 + 4 * s.val)) ||| (1#32 <<< (2 * s.val)) ∧
    packSlot dc s w c = setBits (setBits dc (enOff s) 2 1) (clOff s) 4 (encCl w c).toNat

/-- R77: CLEAR_ENABLE clears both bits of one enable field, keeps the condition+length field, and changes nothing
when the field is clear. -/
def Obligations.ClearEnableClosedForm : Prop :=
  (∀ (dc : Word) (s : Slot),
    clearEnable dc s = dc &&& ~~~(0x3#32 <<< (2 * s.val)) ∧
    enOf (clearEnable dc s) s = 0#2 ∧
    clOf (clearEnable dc s) s = clOf dc s ∧
    (enOf dc s = 0#2 → clearEnable dc s = dc)) ∧
  clearEnable 0x000D0001#32 0 = 0x000D0000#32

/-- 40_encoder_primitives.md, section 4, the four laws of the transformers (derived there): locality, read-back,
the source's round trip, overwrite. -/
def Obligations.TransformerLaws : Prop :=
  (∀ (dc : Word) (s t : Slot) (w : Width) (c : Condition), t ≠ s →
    enOf (packSlot dc s w c) t = enOf dc t ∧ clOf (packSlot dc s w c) t = clOf dc t ∧
    enOf (clearEnable dc s) t = enOf dc t ∧ clOf (clearEnable dc s) t = clOf dc t) ∧
  (∀ (dc : Word) (s : Slot) (w : Width) (c : Condition),
    (packSlot dc s w c).extractLsb' 8 8 = dc.extractLsb' 8 8 ∧
    (clearEnable dc s).extractLsb' 8 8 = dc.extractLsb' 8 8 ∧
    enOf (packSlot dc s w c) s = 1#2 ∧ condOf (packSlot dc s w c) s = encCond c ∧
    lenOf (packSlot dc s w c) s = encLen w) ∧
  (∀ (dc : Word) (s : Slot) (w : Width) (c : Condition),
    enOf (clearEnable (packSlot dc s w c) s) s = 0#2 ∧
    ∀ j, j < 32 → ¬ (enOff s ≤ j ∧ j < enOff s + 2) → ¬ (clOff s ≤ j ∧ j < clOff s + 4) →
      (clearEnable (packSlot dc s w c) s).getLsbD j = dc.getLsbD j) ∧
  (∀ (dc : Word) (s : Slot) (w1 w2 : Width) (c1 c2 : Condition),
    packSlot (packSlot dc s w1 c1) s w2 c2 = packSlot dc s w2 c2)

/-! ### The allocator -/

/-- 41_slot_allocator.md, SLOT_FREE and FIRST_FREE: a slot is free exactly when both its enable bits are 0, the lowest
free slot is chosen, and only bits 7:0 of the image count. Rests on the spec's decision D7. -/
def Obligations.FirstFreeIsLowestFree : Prop :=
  (∀ (dc : Word) (s : Slot), slotFree dc s = true ↔ dc.getLsbD (2 * s.val) = false ∧ dc.getLsbD (2 * s.val + 1) = false) ∧
  (∀ (dc : Word) (s : Slot), firstFree dc = some s ↔ slotFree dc s = true ∧ ∀ t, t < s → slotFree dc t = false) ∧
  (∀ dc : Word, firstFree dc = none ↔ ∀ s, slotFree dc s = false) ∧
  (∀ dc dc' : Word, dc.extractLsb' 0 8 = dc'.extractLsb' 0 8 → firstFree dc = firstFree dc')

/-- 41_slot_allocator.md, the laws of the allocator, (c) and (d) (derived there): a slot given up is free, it is the
one offered as soon as all below it are occupied, and in any case one at most it is offered, so a re-arm never lacks
a slot; and a slot just reserved is not offered. -/
def Obligations.ReleasedSlotIsOfferedReservedIsNot : Prop :=
  (∀ (dc : Word) (t : Slot), slotFree (clearEnable dc t) t = true ∧
    (∃ s, firstFree (clearEnable dc t) = some s ∧ s ≤ t) ∧
    (firstFree (clearEnable dc t) = some t ↔ ∀ u, u < t → slotFree dc u = false)) ∧
  (∀ (dc : Word) (s : Slot) (w : Width) (c : Condition), firstFree (packSlot dc s w c) ≠ some s)

/-! ### Validation -/

/-- 42_commands.md, section 2, VALID at every address width, and that a valid request's bytes never wrap past the
top of the address space. Rests on the spec's decision D8 (log 14). -/
def Obligations.ValidIffPreconditions : Prop :=
  ∀ (aw : Nat) (a : BitVec aw) (w : Nat) (c : CondCode), 3 ≤ aw →
    (valid a w c = true ↔
      (w = 1 ∨ w = 2 ∨ w = 4) ∧ (c = 0b01#2 ∨ c = 0b11#2) ∧ a ≠ 0#aw ∧ a.toNat % w = 0) ∧
    (valid a w c = true → a.toNat + w ≤ 2 ^ aw)

/-- 60_exceptions.md, section 1, cause 1: every width but 1, 2 and 4 fails, with no register touched. That it makes no
accessor event at all, no Get either, is the spec's decision D20 (log 14). -/
def Obligations.IllegalWidthRejected : Prop :=
  ∀ (s : State) (x : Instance) (k : Ctx) (a : Addr) (w : Nat) (c : CondCode),
    bound s s.cur x k → w ≠ 1 → w ≠ 2 → w ≠ 4 →
    exec (.activate a w c) s =
      .next { s with log := .command s.cur (.activate a w c) .invalidBreakpointRequest [] :: s.log }

/-- 60_exceptions.md, section 1, cause 2, and 20_memory.md, section 3: width 2 needs bit 0 clear and width 4 bits
1:0 clear, width 1 nothing; a misaligned request fails and changes nothing. That it makes no accessor event at all
is the spec's decision D20 (log 14). -/
def Obligations.MisalignedAddressRejected : Prop :=
  (∀ (s : State) (x : Instance) (k : Ctx) (a : Addr) (c : CondCode), bound s s.cur x k →
    (a.getLsbD 0 = true → exec (.activate a 2 c) s =
      .next { s with log := .command s.cur (.activate a 2 c) .invalidBreakpointRequest [] :: s.log }) ∧
    (a.extractLsb' 0 2 ≠ 0#2 → exec (.activate a 4 c) s =
      .next { s with log := .command s.cur (.activate a 4 c) .invalidBreakpointRequest [] :: s.log })) ∧
  (∀ (a : Addr) (c : Condition), a ≠ 0#Config.aw →
    valid a 1 (encCond c) = true ∧
    (a.getLsbD 0 = false → valid a 2 (encCond c) = true) ∧
    (a.extractLsb' 0 2 = 0#2 → valid a 4 (encCond c) = true))

/-- 60_exceptions.md, section 1, causes 4 and 5: a null address or a condition code other than `01`, `11` fails and
changes nothing. The spec's decision D8 and conflict C2 (log 14). -/
def Obligations.NullAddressOrIllegalConditionRejected : Prop :=
  ∀ (s : State) (x : Instance) (k : Ctx) (a : Addr) (w : Nat) (c : CondCode),
    bound s s.cur x k → a = 0#Config.aw ∨ (c ≠ 0b01#2 ∧ c ≠ 0b11#2) →
    exec (.activate a w c) s =
      .next { s with log := .command s.cur (.activate a w c) .invalidBreakpointRequest [] :: s.log }

/-! ### ACTIVATE -/

/-- 42_commands.md, section 3, a successful ACTIVATE, whole: what it writes and that it writes nothing else. Rests
on the spec's decisions D4 to D9 (log 8, 14). -/
def Obligations.ActivateArmsFirstFreeSlot : Prop :=
  ∀ (s : State) (x : Instance) (k : Ctx) (a : Addr) (w : Nat) (c : CondCode) (sl : Slot),
    bound s s.cur x k → valid a w c = true → firstFree (releasedImage x.slot k.dc) = some sl →
    ∃ (t : State) (k' : Ctx), exec (.activate a w c) s = .next t ∧
      t.insts[s.cur]? = some ⟨some sl, x.ctx⟩ ∧
      (∀ m, m ≠ s.cur → t.insts[m]? = s.insts[m]?) ∧
      t.ctxs[x.ctx]? = some k' ∧
      (∀ m, m ≠ x.ctx → t.ctxs[m]? = s.ctxs[m]?) ∧
      daOf k' sl = a ∧ (∀ u, u ≠ sl → daOf k' u = daOf k u) ∧
      enOf k'.dc sl = 0b01#2 ∧ lOf k'.dc sl = true ∧ condOf k'.dc sl = c ∧
      lenOf k'.dc sl = (if w = 1 then 0b00#2 else if w = 2 then 0b01#2 else 0b11#2) ∧
      (∀ r, x.slot = some r → r ≠ sl → enOf k'.dc r = 0b00#2) ∧
      (∀ j, j < 32 → ¬ (enOff sl ≤ j ∧ j < enOff sl + 2) → ¬ (clOff sl ≤ j ∧ j < clOff sl + 4) →
        (∀ r, x.slot = some r → ¬ (enOff r ≤ j ∧ j < enOff r + 2)) → k'.dc.getLsbD j = k.dc.getLsbD j) ∧
      t.cur = s.cur ∧ t.inputs = s.inputs ∧ t.log = .command s.cur (.activate a w c) .ok [.get, .set] :: s.log

/-- 41_slot_allocator.md, exhaustion, and 60_exceptions.md, section 1, cause 3: with all four slots occupied a valid
ACTIVATE from Unarmed fails after one Get, writing nothing; from Armed a valid ACTIVATE never fails. The counts of
accessor events are the spec's decisions D9 and D20 (log 14). -/
def Obligations.ExhaustionFailsOnlyFromUnarmed : Prop :=
  ∀ (s : State) (x : Instance) (k : Ctx) (a : Addr) (w : Nat) (c : CondCode),
    bound s s.cur x k → valid a w c = true →
    (x.slot = none → (∀ u, slotFree k.dc u = false) →
      exec (.activate a w c) s =
        .next { s with log := .command s.cur (.activate a w c) .invalidBreakpointRequest [.get] :: s.log }) ∧
    (∀ r, x.slot = some r →
      ∃ t, exec (.activate a w c) s = .next t ∧ t.log = .command s.cur (.activate a w c) .ok [.get, .set] :: s.log)

/-- 60_exceptions.md, sections 1 and 3: only ACTIVATE reports the error, for an invalid request or for want of a
slot, and then nothing but the observation has changed. The accessor events of the two cases are the spec's decision
D20 (log 14). -/
def Obligations.ErrorIsPreciseAndOnlyFromActivate : Prop :=
  resultCode .invalidBreakpointRequest = 0b1#1 ∧
  ∀ (s t : State) (i : Instr) (ev : List CtxEvent), exec i s = .next t →
    t.log = .command s.cur i .invalidBreakpointRequest ev :: s.log →
    t = { s with log := .command s.cur i .invalidBreakpointRequest ev :: s.log } ∧
    ∃ (a : Addr) (w : Nat) (c : CondCode) (x : Instance) (k : Ctx),
      i = .activate a w c ∧ bound s s.cur x k ∧
      ((valid a w c = false ∧ ev = []) ∨
        (valid a w c = true ∧ x.slot = none ∧ (∀ u, slotFree k.dc u = false) ∧ ev = [.get]))

/-- 42_commands.md, section 3, re-arm (derived there): the slot chosen is the held one if all below are occupied,
else the lowest free one below; a slot left behind is disabled with its old code and address. -/
def Obligations.RearmKeepsOrLowersSlot : Prop :=
  ∀ (s : State) (x : Instance) (k : Ctx) (a : Addr) (w : Nat) (c : CondCode) (r : Slot),
    bound s s.cur x k → valid a w c = true → x.slot = some r →
    ∃ (t : State) (k' : Ctx) (sl : Slot), exec (.activate a w c) s = .next t ∧
      readSlot t s.cur = some (some sl) ∧ t.ctxs[x.ctx]? = some k' ∧ sl ≤ r ∧
      (sl = r ↔ ∀ u, u < r → slotFree k.dc u = false) ∧
      (∀ u, u < sl → slotFree k.dc u = false) ∧
      (sl ≠ r → slotFree k.dc sl = true ∧ enOf k'.dc r = 0b00#2 ∧ clOf k'.dc r = clOf k.dc r ∧ daOf k' r = daOf k r)

/-- 42_commands.md, section 3 (derived there): a legal re-arm ends where DEACTIVATE followed by ACTIVATE with the
same operands ends. -/
def Obligations.RearmEqualsDeactivateThenActivate : Prop :=
  ∀ (s : State) (x : Instance) (k : Ctx) (a : Addr) (w : Nat) (c : CondCode) (r : Slot),
    bound s s.cur x k → valid a w c = true → x.slot = some r →
    ∃ t u v, exec (.activate a w c) s = .next t ∧ exec .deactivate s = .next u ∧
      exec (.activate a w c) u = .next v ∧ t.insts = v.insts ∧ t.ctxs = v.ctxs

/-! ### DEACTIVATE and RELEASE -/

/-- R96: DEACTIVATE on Unarmed changes nothing; on Armed it clears the two enable bits of the held slot, whatever
they hold, and sets `SLOT` to -1, and nothing else. -/
def Obligations.DeactivateClearsOnlyEnable : Prop :=
  ∀ (s : State) (x : Instance) (k : Ctx), bound s s.cur x k →
    (x.slot = none → exec .deactivate s = .next { s with log := .command s.cur .deactivate .ok [] :: s.log }) ∧
    (∀ r, x.slot = some r → ∃ (t : State) (k' : Ctx), exec .deactivate s = .next t ∧
      t.insts[s.cur]? = some ⟨none, x.ctx⟩ ∧
      (∀ m, m ≠ s.cur → t.insts[m]? = s.insts[m]?) ∧
      t.ctxs[x.ctx]? = some k' ∧
      (∀ m, m ≠ x.ctx → t.ctxs[m]? = s.ctxs[m]?) ∧
      (∀ u, daOf k' u = daOf k u) ∧ enOf k'.dc r = 0b00#2 ∧
      (∀ j, j < 32 → ¬ (enOff r ≤ j ∧ j < enOff r + 2) → k'.dc.getLsbD j = k.dc.getLsbD j) ∧
      t.cur = s.cur ∧ t.inputs = s.inputs ∧ t.log = .command s.cur .deactivate .ok [.get, .set] :: s.log)

/-- 42_commands.md, section 4: RELEASE completes in every state, does exactly what DEACTIVATE does (only the command
the host observes is another), and leaves the instance Unarmed with its slot's enable field clear. The spec's
decision D14. -/
def Obligations.ReleaseDisarms : Prop :=
  ∀ (s : State) (x : Instance) (k : Ctx), bound s s.cur x k →
    ∃ (t : State) (k' : Ctx) (ev : List CtxEvent), exec .release s = .next t ∧
      exec .deactivate s = .next { t with log := .command s.cur .deactivate .ok ev :: s.log } ∧
      readSlot t s.cur = some none ∧ t.ctxs[x.ctx]? = some k' ∧
      (∀ r, x.slot = some r → enOf k'.dc r = 0b00#2) ∧ (∀ u, clOf k'.dc u = clOf k.dc u ∧ daOf k' u = daOf k u) ∧
      t.log = .command s.cur .release .ok ev :: s.log

/-- 42_commands.md, section 4, laws (a) and (b) (derived there): DEACTIVATE twice is DEACTIVATE once. -/
def Obligations.DeactivateIsIdempotent : Prop :=
  ∀ (s : State) (x : Instance) (k : Ctx), bound s s.cur x k →
    ∃ t, exec .deactivate s = .next t ∧ readSlot t s.cur = some none ∧
      exec .deactivate t = .next { t with log := .command s.cur .deactivate .ok [] :: t.log }

/-- 42_commands.md, section 4, law (d), the source's round-trip property (derived there). -/
def Obligations.ActivateThenDeactivateRoundTrip : Prop :=
  ∀ (s : State) (x : Instance) (k : Ctx) (a : Addr) (w : Nat) (c : CondCode) (sl : Slot),
    bound s s.cur x k → x.slot = none → valid a w c = true → firstFree k.dc = some sl →
    ∃ (t u : State) (k' : Ctx), exec (.activate a w c) s = .next t ∧ exec .deactivate t = .next u ∧
      u.insts = s.insts ∧ u.ctxs[x.ctx]? = some k' ∧ (∀ m, m ≠ x.ctx → u.ctxs[m]? = s.ctxs[m]?) ∧
      enOf k'.dc sl = 0b00#2 ∧ daOf k' sl = a ∧ condOf k'.dc sl = c ∧ (∀ r, r ≠ sl → daOf k' r = daOf k r) ∧
      (∀ j, j < 32 → ¬ (enOff sl ≤ j ∧ j < enOff sl + 2) → ¬ (clOff sl ≤ j ∧ j < clOff sl + 4) →
        k'.dc.getLsbD j = k.dc.getLsbD j)

/-- R141: DEACTIVATE leaves the slot's code and address behind, and a slot reserved again holds nothing of what it
held before. -/
def Obligations.LeftoversStayUntilReused : Prop :=
  (∀ (s : State) (x : Instance) (k : Ctx), bound s s.cur x k →
    ∃ (t : State) (k' : Ctx), exec .deactivate s = .next t ∧ t.ctxs[x.ctx]? = some k' ∧
      ∀ u, clOf k'.dc u = clOf k.dc u ∧ daOf k' u = daOf k u) ∧
  (∀ (s s2 : State) (x x2 : Instance) (k k2 : Ctx) (a : Addr) (w : Nat) (c : CondCode) (sl : Slot),
    bound s s.cur x k → bound s2 s2.cur x2 k2 → valid a w c = true →
    firstFree (releasedImage x.slot k.dc) = some sl → firstFree (releasedImage x2.slot k2.dc) = some sl →
    ∃ (t t2 : State) (k' k2' : Ctx), exec (.activate a w c) s = .next t ∧ exec (.activate a w c) s2 = .next t2 ∧
      t.ctxs[x.ctx]? = some k' ∧ t2.ctxs[x2.ctx]? = some k2' ∧
      enOf k'.dc sl = enOf k2'.dc sl ∧ clOf k'.dc sl = clOf k2'.dc sl ∧ daOf k' sl = daOf k2' sl)

/-! ### The state machine -/

/-- R99: the table of transitions, row by row; `SLOT` before and after, and the result. -/
def Obligations.StateMachineTable : Prop :=
  ∀ (s : State) (x : Instance) (k : Ctx), bound s s.cur x k →
    (∀ a w c sl, x.slot = none → valid a w c = true → firstFree k.dc = some sl →
      ∃ t ev, exec (.activate a w c) s = .next t ∧ readSlot t s.cur = some (some sl) ∧
        t.log = .command s.cur (.activate a w c) .ok ev :: s.log) ∧
    (∀ a w c, x.slot = none → valid a w c = false ∨ firstFree k.dc = none →
      ∃ t ev, exec (.activate a w c) s = .next t ∧ readSlot t s.cur = some none ∧
        t.log = .command s.cur (.activate a w c) .invalidBreakpointRequest ev :: s.log) ∧
    (∀ a w c r, x.slot = some r → valid a w c = true →
      ∃ t ev sl, exec (.activate a w c) s = .next t ∧ readSlot t s.cur = some (some sl) ∧ sl ≤ r ∧
        t.log = .command s.cur (.activate a w c) .ok ev :: s.log) ∧
    (∀ a w c r, x.slot = some r → valid a w c = false →
      ∃ t ev, exec (.activate a w c) s = .next t ∧ readSlot t s.cur = some (some r) ∧ t.ctxs = s.ctxs ∧
        t.log = .command s.cur (.activate a w c) .invalidBreakpointRequest ev :: s.log) ∧
    (∀ i, i = .deactivate ∨ i = .release →
      ∃ t ev, exec i s = .next t ∧ readSlot t s.cur = some none ∧ t.log = .command s.cur i .ok ev :: s.log) ∧
    (∃ t, resetInstance s.cur s = .next t ∧ readSlot t s.cur = some none ∧ t.log = s.log)

/-- 42_commands.md, section 5 (derived there): no state has a command it cannot accept. -/
def Obligations.EveryCommandCompletes : Prop :=
  ∀ (s : State) (x : Instance) (k : Ctx) (i : Instr), bound s s.cur x k → i.isCommand = true →
    ∃ (t : State) (r : Result) (ev : List CtxEvent),
      exec i s = .next t ∧ t.log = .command s.cur i r ev :: s.log

/-- 42_commands.md, section 5 (derived there), for the whole machine: while every instance is bound and the next input
names only what exists, is not the reserved code and is no reset during a life, the machine steps on; it is
never stuck. -/
def Obligations.AddressedInputsNeverStop : Prop :=
  ∀ s : State, Safety.allBound s → (∀ inp rest, s.inputs = inp :: rest → Safety.addressed s inp) →
    ∃ t, step s = .next t

/-- 20_memory.md, section 2, the table of accessor events, for the command functions at every address width. Rests on
the spec's decisions D8, D9, D20 (log 14). -/
def Obligations.AccessorEventsPerCommand : Prop :=
  ∀ (aw : Nat) (slot : SlotIndex) (k : Context aw),
    (∀ a w c, valid a w c = false → (activate a w c slot ⟨k, []⟩).bus.events = []) ∧
    (∀ a w c, valid a w c = true → firstFree (releasedImage slot k.dc) = none →
      (activate a w c slot ⟨k, []⟩).bus.events = [.get]) ∧
    (∀ a w c sl, valid a w c = true → firstFree (releasedImage slot k.dc) = some sl →
      (activate a w c slot ⟨k, []⟩).bus.events = [.get, .set]) ∧
    (deactivate slot ⟨k, []⟩).bus.events = (if slot = none then [] else [.get, .set]) ∧
    (release slot ⟨k, []⟩).bus.events = (if slot = none then [] else [.get, .set])

/-! ### What no command does -/

/-- R13: an address register changes only in a successful ACTIVATE of an instance on that context, only in the slot
chosen, and then holds the request's address unchanged. -/
def Obligations.AddressRegisterWrittenOnlyByActivate : Prop :=
  ∀ (s t : State) (i : Instr) (n : Nat) (k k' : Ctx) (u : Slot), exec i s = .next t →
    s.ctxs[n]? = some k → t.ctxs[n]? = some k' → daOf k' u ≠ daOf k u →
    ∃ (a : Addr) (w : Nat) (c : CondCode) (x : Instance), i = .activate a w c ∧ valid a w c = true ∧
      s.insts[s.cur]? = some x ∧ x.ctx = n ∧ readSlot t s.cur = some (some u) ∧ daOf k' u = a

/-- 10_state.md, section 3: no command uses the value of an address register: whatever they hold, `SLOT`, the
result, the events and the control register of each of the three commands come out the same, and DEACTIVATE and
RELEASE carry them through unchanged; and the address of a disabled slot has no effect on what traps (in the open
part of the match this is the model's deduction, DEDUCED, log 7). -/
def Obligations.AddressRegistersNeverInfluence : Prop :=
  (∀ (aw : Nat) (slot : SlotIndex) (da da' : Vector (BitVec aw) NSLOT) (dc : Word)
      (f : SlotIndex → Bus aw → CommandOut aw),
    ((∃ a w c, f = activate a w c) ∨ f = deactivate ∨ f = release) →
      (f slot ⟨⟨da, dc⟩, []⟩).slot = (f slot ⟨⟨da', dc⟩, []⟩).slot ∧
      (f slot ⟨⟨da, dc⟩, []⟩).result = (f slot ⟨⟨da', dc⟩, []⟩).result ∧
      (f slot ⟨⟨da, dc⟩, []⟩).bus.events = (f slot ⟨⟨da', dc⟩, []⟩).bus.events ∧
      (f slot ⟨⟨da, dc⟩, []⟩).bus.ctx.dc = (f slot ⟨⟨da', dc⟩, []⟩).bus.ctx.dc ∧
      (f = deactivate ∨ f = release → (f slot ⟨⟨da, dc⟩, []⟩).bus.ctx.da = da)) ∧
  (∀ (aw : Nat) (k : Context aw) (u : Slot) (v : BitVec aw) (acc : Access aw), slotFree k.dc u = true →
    watchMatch (writeDa k u v) acc = watchMatch k acc)

/-- R21: bits of the control word in no slot, and the fields of slots a command does not work on, are neither changed
by it nor influence it, but for the enable fields the allocator reads: two images with the same enable
fields lead to the same slot, result and events, and every bit of the image either stays in both or comes
out the same in both. -/
def Obligations.OtherBitsNeverInfluence : Prop :=
  (∀ (aw : Nat) (slot : SlotIndex) (da : Vector (BitVec aw) NSLOT) (dc dc' : Word) (a : BitVec aw) (w : Nat)
      (c : CondCode), (∀ u, enOf dc u = enOf dc' u) →
    (activate a w c slot ⟨⟨da, dc⟩, []⟩).slot = (activate a w c slot ⟨⟨da, dc'⟩, []⟩).slot ∧
    (activate a w c slot ⟨⟨da, dc⟩, []⟩).result = (activate a w c slot ⟨⟨da, dc'⟩, []⟩).result ∧
    (activate a w c slot ⟨⟨da, dc⟩, []⟩).bus.events = (activate a w c slot ⟨⟨da, dc'⟩, []⟩).bus.events ∧
    (activate a w c slot ⟨⟨da, dc⟩, []⟩).bus.ctx.da = (activate a w c slot ⟨⟨da, dc'⟩, []⟩).bus.ctx.da ∧
    ∀ j, j < 32 →
      ((activate a w c slot ⟨⟨da, dc⟩, []⟩).bus.ctx.dc.getLsbD j = dc.getLsbD j ∧
        (activate a w c slot ⟨⟨da, dc'⟩, []⟩).bus.ctx.dc.getLsbD j = dc'.getLsbD j) ∨
      (activate a w c slot ⟨⟨da, dc⟩, []⟩).bus.ctx.dc.getLsbD j =
        (activate a w c slot ⟨⟨da, dc'⟩, []⟩).bus.ctx.dc.getLsbD j) ∧
  (∀ (aw : Nat) (slot : SlotIndex) (da : Vector (BitVec aw) NSLOT) (dc dc' : Word)
      (f : SlotIndex → Bus aw → CommandOut aw), f = deactivate ∨ f = release →
    (f slot ⟨⟨da, dc⟩, []⟩).slot = (f slot ⟨⟨da, dc'⟩, []⟩).slot ∧
    (f slot ⟨⟨da, dc⟩, []⟩).result = (f slot ⟨⟨da, dc'⟩, []⟩).result ∧
    (f slot ⟨⟨da, dc⟩, []⟩).bus.events = (f slot ⟨⟨da, dc'⟩, []⟩).bus.events ∧
    ∀ j, j < 32 →
      ((f slot ⟨⟨da, dc⟩, []⟩).bus.ctx.dc.getLsbD j = dc.getLsbD j ∧
        (f slot ⟨⟨da, dc'⟩, []⟩).bus.ctx.dc.getLsbD j = dc'.getLsbD j) ∨
      (f slot ⟨⟨da, dc⟩, []⟩).bus.ctx.dc.getLsbD j =
        (f slot ⟨⟨da, dc'⟩, []⟩).bus.ctx.dc.getLsbD j) ∧
  (∀ (s t : State) (i : Instr) (x : Instance) (k k' : Ctx), exec i s = .next t → bound s s.cur x k →
    t.ctxs[x.ctx]? = some k' →
    k'.dc.extractLsb' 8 8 = k.dc.extractLsb' 8 8 ∧
    ∀ u, x.slot ≠ some u → readSlot t s.cur ≠ some (some u) →
      enOf k'.dc u = enOf k.dc u ∧ clOf k'.dc u = clOf k.dc u)

/-- 10_state.md, section 2 (derived there from the list of writers): one step changes an instance's `SLOT` only if its
input is a legal ACTIVATE for that instance, leaving it Armed, or a DEACTIVATE or RELEASE for it, leaving it
Unarmed. (A reset is admitted only while `SLOT` is -1 already, log 11.) -/
def Obligations.SlotWrittenOnlyByOwnCommands : Prop :=
  ∀ (s t : State) (n : Nat), step s = .next t → readSlot t n ≠ readSlot s n →
    ∃ (inp : Input) (rest : List Input), s.inputs = inp :: rest ∧
      ((∃ a w c, Safety.commandFor n inp = some (.activate a w c) ∧ valid a w c = true ∧
          ∃ sl, readSlot t n = some (some sl)) ∨
        ((Safety.commandFor n inp = some .deactivate ∨ Safety.commandFor n inp = some .release) ∧
          readSlot t n = some none))

/-- R10: nothing but `SLOT` survives inside the block from one command to the next: a command's whole outcome is
fixed by `SLOT` and the context its instance is bound to, whatever the rest of the machine holds. -/
def Obligations.CommandDependsOnlyOnSlotAndContext : Prop :=
  ∀ (s s2 : State) (i : Instr) (x x2 : Instance) (k : Ctx), bound s s.cur x k → bound s2 s2.cur x2 k →
    x.slot = x2.slot → i.isCommand = true →
    ∃ (t t2 : State) (v : SlotIndex) (k' : Ctx) (r : Result) (ev : List CtxEvent),
      exec i s = .next t ∧ exec i s2 = .next t2 ∧
      readSlot t s.cur = some v ∧ readSlot t2 s2.cur = some v ∧
      t.ctxs[x.ctx]? = some k' ∧ t2.ctxs[x2.ctx]? = some k' ∧
      t.log = .command s.cur i r ev :: s.log ∧ t2.log = .command s2.cur i r ev :: s2.log

/-- 60_exceptions.md, section 5: a command touches no other instance and no other context, and changes no binding. The
spec's decision D17. -/
def Obligations.OtherInstancesAndContextsUntouched : Prop :=
  ∀ (s t : State) (i : Instr) (x : Instance) (k : Ctx), exec i s = .next t → bound s s.cur x k →
    (∀ n, n ≠ s.cur → t.insts[n]? = s.insts[n]?) ∧ (∀ n, n ≠ x.ctx → t.ctxs[n]? = s.ctxs[n]?) ∧
    t.insts.map Instance.ctx = s.insts.map Instance.ctx ∧ t.ctxs.length = s.ctxs.length ∧
    t.cur = s.cur ∧ t.inputs = s.inputs

/-! ### Invariants of every step -/

/-- 41_slot_allocator.md, the laws of the allocator, (e) (derived there): under the caller's coordination every step
keeps it that each held slot shows as occupied and that no two instances on one context hold the same slot. -/
def Obligations.OwnershipKeptByEveryStep : Prop :=
  ∀ s t : State, Safety.ownership s → (∀ inp rest, s.inputs = inp :: rest → Safety.coordinated s inp) →
    step s = .next t → Safety.ownership t

/-- 70_reset_and_hazards.md, section 1, and log 3: the machine right after reset meets every invariant stated here. -/
def Obligations.ResetMeetsInvariants : Prop :=
  Safety.ownership State.reset ∧ Safety.allBound State.reset ∧ Safety.lifetimes State.reset

/-- 60_exceptions.md, section 5, and 70_reset_and_hazards.md, section 2: no step changes a binding, and every instance
stays bound to a context that exists. The spec's decision D17. -/
def Obligations.BindingsKeptByEveryStep : Prop :=
  ∀ s t : State, Safety.allBound s → step s = .next t →
    Safety.allBound t ∧ t.insts.map Instance.ctx = s.insts.map Instance.ctx ∧ t.ctxs.length = s.ctxs.length

/-- 60_exceptions.md, section 5: at most four instances are Armed at once on one context. -/
def Obligations.AtMostFourArmedPerContext : Prop :=
  ∀ (s : State) (n : Nat), Safety.ownership s →
    (s.insts.filter (fun x => decide (x.ctx = n) && x.slot.isSome)).length ≤ 4

/-- 42_commands.md, section 5 (derived there), and 70_reset_and_hazards.md, sections 1 and 2: when inputs that are
whole lives of an instance have been run to the end, it is Unarmed; and when the last input of a list is RELEASE,
the run of the list ends with the instance Unarmed and the enable field of the slot it held clear. -/
def Obligations.LifetimeEndingInReleaseEndsUnarmed : Prop :=
  (∀ (fuel : Nat) (s t : State) (n : Nat) (x : Instance), s.insts[n]? = some x →
    (x.slot ≠ none → inLife n s.log = true) → Safety.wholeLives n (inLife n s.log) s.inputs = true →
    core.run fuel s = .next t → t.inputs = [] → readSlot t n = some none ∧ inLife n t.log = false) ∧
  (∀ (s r : State) (l : List Input) (last : Input) (n : Nat) (x : Instance) (k : Ctx), s.inputs = l ++ [last] →
    Safety.commandFor n last = some .release → core.run l.length s = .next r → bound r n x k →
    ∃ (t : State) (k' : Ctx), core.run (l.length + 1) s = .next t ∧ t.inputs = [] ∧ readSlot t n = some none ∧
      t.ctxs[x.ctx]? = some k' ∧ ∀ sl, x.slot = some sl → enOf k'.dc sl = 0b00#2)

/-! ### Reset, construction, foreign writes -/

/-- R130: reset sets the instance's `SLOT` to -1 and does nothing else, no accessor event and no change of a context,
whatever state it is in; a reset input does that wherever it is admitted; and every instance begins with no
reserved slot. -/
def Obligations.ResetUnarmsAndNothingElse : Prop :=
  (∀ (s : State) (n : Nat) (x : Instance), s.insts[n]? = some x →
    ∃ t, resetInstance n s = .next t ∧ t.insts[n]? = some ⟨none, x.ctx⟩ ∧ (∀ m, m ≠ n → t.insts[m]? = s.insts[m]?) ∧
      t.ctxs = s.ctxs ∧ t.log = s.log ∧ t.inputs = s.inputs ∧ t.cur = s.cur) ∧
  (∀ (s : State) (n : Nat) (x : Instance) (rest : List Input), s.inputs = .reset n :: rest → s.insts[n]? = some x →
    x.slot = none → inLife n s.log = false → step s = resetInstance n { s with inputs := rest }) ∧
  (∀ x ∈ State.reset.insts, x.slot = none)

/-- 10_state.md, section 7: what the contexts hold at reset. The spec gives no value and admits every one; the zeros
are the model's choice, log 2, and the numbers of instances and contexts log 3. -/
def Obligations.ResetContextsHoldModelChoice : Prop :=
  State.reset.insts.length = 5 ∧ State.reset.ctxs.length = 1 ∧
  ∀ k ∈ State.reset.ctxs, k.dc = 0#32 ∧ ∀ u, daOf k u = 0#Config.aw

/-- 70_reset_and_hazards.md, section 1 (derived there): reset is not release. Resetting an Armed instance would
leave its slot enabled, occupied for every allocator, and held by no instance; so a reset is admitted only at the
start of a life or after RELEASE, and a reset input during one is refused. The refusal is the spec's entry U9 (log
11). -/
def Obligations.ResetOfArmedLeavesSlotOccupied : Prop :=
  (∀ (s : State) (n : Nat) (x : Instance) (k : Ctx) (r : Slot), bound s n x k → x.slot = some r →
    Safety.ownership s →
    ∃ t, resetInstance n s = .next t ∧ t.ctxs[x.ctx]? = some k ∧ slotFree k.dc r = false ∧ firstFree k.dc ≠ some r ∧
      ∀ y ∈ t.insts, y.ctx = x.ctx → y.slot ≠ some r) ∧
  (∀ (s : State) (n : Nat) (x : Instance) (rest : List Input), s.inputs = .reset n :: rest → s.insts[n]? = some x →
    x.slot ≠ none ∨ inLife n s.log = true → step s = .refused .resetDuringLife)

/-- 70_reset_and_hazards.md, section 1: construction-time activation, at the start of a life or after RELEASE, is
reset followed at once by ACTIVATE; it claims a slot and writes both the address register and the control bits, and
if it fails the instance exists and is Unarmed. That the first free slot is taken and the enable field is 01 are the
spec's decisions D7 and D6 (log 8). -/
def Obligations.ConstructActivatesOrLeavesUnarmed : Prop :=
  ∀ (s : State) (n : Nat) (x : Instance) (k : Ctx) (a : Addr) (w : Nat) (c : CondCode) (rest : List Input),
    bound s n x k → x.slot = none → inLife n s.log = false → s.inputs = construct n a w c ++ rest →
    ∃ t u, step s = .next t ∧ t.insts[n]? = some ⟨none, x.ctx⟩ ∧ t.ctxs = s.ctxs ∧
      step t = .next u ∧ exec (.activate a w c) { t with cur := n, inputs := rest } = .next u ∧
      u.insts[n]? = some ⟨if valid a w c = true then firstFree k.dc else none, x.ctx⟩ ∧
      (valid a w c = true → ∀ sl, firstFree k.dc = some sl → ∃ k', u.ctxs[x.ctx]? = some k' ∧
        daOf k' sl = a ∧ enOf k'.dc sl = 0b01#2 ∧ condOf k'.dc sl = c ∧
        lenOf k'.dc sl = (if w = 1 then 0b00#2 else if w = 2 then 0b01#2 else 0b11#2)) ∧
      (valid a w c = false ∨ firstFree k.dc = none → u.ctxs = s.ctxs)

/-- 30_encoding.md, section 6 (ENV lines), and 10_state.md, section 5: a foreign write changes the one register it
names, in the one context, and nothing of the block. The spec's decision D21. -/
def Obligations.ForeignWriteChangesOneRegister : Prop :=
  (∀ (s : State) (n : Nat) (k : Ctx) (v : Word) (rest : List Input), s.inputs = .foreignDc n v :: rest →
    s.ctxs[n]? = some k →
    ∃ t k', step s = .next t ∧ t.ctxs[n]? = some k' ∧ k'.dc = v ∧ (∀ u, daOf k' u = daOf k u) ∧
      (∀ m, m ≠ n → t.ctxs[m]? = s.ctxs[m]?) ∧ t.insts = s.insts ∧ t.log = s.log ∧ t.inputs = rest) ∧
  (∀ (s : State) (n : Nat) (k : Ctx) (d : Slot) (v : Addr) (rest : List Input), s.inputs = .foreignDa n d v :: rest →
    s.ctxs[n]? = some k →
    ∃ t k', step s = .next t ∧ t.ctxs[n]? = some k' ∧ k'.dc = k.dc ∧ daOf k' d = v ∧
      (∀ u, u ≠ d → daOf k' u = daOf k u) ∧
      (∀ m, m ≠ n → t.ctxs[m]? = s.ctxs[m]?) ∧ t.insts = s.insts ∧ t.log = s.log ∧ t.inputs = rest)

/-- 70_reset_and_hazards.md, section 3 (derived there): with a stale `SLOT` an instance's DEACTIVATE disarms the
slot another instance believes it holds. -/
def Obligations.StaleSlotDisarmsOtherInstance : Prop :=
  ∀ (s : State) (n : Nat) (x y : Instance) (k : Ctx) (r : Slot), bound s s.cur x k → n ≠ s.cur →
    s.insts[n]? = some y → y.ctx = x.ctx → x.slot = some r → y.slot = some r →
    ∃ t k', exec .deactivate s = .next t ∧ t.ctxs[x.ctx]? = some k' ∧ enOf k'.dc r = 0b00#2 ∧
      readSlot t n = some (some r)

/-! ### The trap -/

/-- 60_exceptions.md, section 2, and 20_memory.md, section 4: after a successful ACTIVATE the very next access to
the watched bytes, a write, or a read if the condition is ReadOrWrite, raises the trap, and changes no register.
Which bytes match is settled only for the watched bytes themselves (log 7). -/
def Obligations.ArmedWatchTraps : Prop :=
  ∀ (s : State) (x : Instance) (k : Ctx) (a : Addr) (w : Nat) (c : CondCode) (kind : AccessKind) (sl : Slot),
    bound s s.cur x k → valid a w c = true → firstFree (releasedImage x.slot k.dc) = some sl →
    kind = .write ∨ (kind = .read ∧ c = 0b11#2) →
    ∃ t, exec (.activate a w c) s = .next t ∧
      ∀ rest, step { t with inputs := .access x.ctx ⟨kind, a, w⟩ :: rest } =
        .next { t with inputs := rest, log := .access x.ctx ⟨kind, a, w⟩ true :: t.log }

/-- 60_exceptions.md, section 2: after DEACTIVATE or RELEASE the slot the instance held matches no access; and in a
context with every slot disabled no access traps. The spec's decision D18 (log 7). -/
def Obligations.DisarmedSlotNeverTraps : Prop :=
  (∀ (s : State) (x : Instance) (k : Ctx) (r : Slot) (i : Instr), bound s s.cur x k → x.slot = some r →
    i = .deactivate ∨ i = .release →
    ∃ t k', exec i s = .next t ∧ t.ctxs[x.ctx]? = some k' ∧ ∀ acc, slotMatch k' r acc = .no) ∧
  (∀ (s : State) (n : Nat) (k : Ctx) (acc : Access Config.aw) (rest : List Input),
    s.inputs = .access n acc :: rest → s.ctxs[n]? = some k → (∀ u, slotFree k.dc u = true) →
    step s = .next { s with inputs := rest, log := .access n acc false :: s.log })

/-- 60_exceptions.md, section 2, the settled points of `WatchMatch`, slot by slot and at every address width: a
write watch matches no read and neither condition matches a fetch (the spec derives the latter); and, which is the
model's deduction and not the spec's (DEDUCED, log 7), an access with no watched byte does not match. The spec's
decision D18; the addresses are compared as they stand (log 18). -/
def Obligations.SettledPointsOfWatchMatch : Prop :=
  ∀ (aw : Nat) (k : Context aw) (u : Slot) (acc : Access aw),
    (condOf k.dc u = 0b01#2 → acc.kind ≠ .write → slotMatch k u acc = .no) ∧
    (condOf k.dc u = 0b11#2 → acc.kind = .fetch → slotMatch k u acc = .no) ∧
    (∀ w c, condOf k.dc u = encCond c → lenOf k.dc u = encLen w → (daOf k u).toNat % widthBytes w = 0 →
      acc.size ≠ 0 → acc.addr.toNat + acc.size ≤ 2 ^ aw →
      acc.addr.toNat + acc.size ≤ (daOf k u).toNat ∨ (daOf k u).toNat + widthBytes w ≤ acc.addr.toNat →
      slotMatch k u acc = .no)

/-! ### Codes -/

/-- 10_state.md, section 2, and 30_encoding.md, section 4: the bit patterns of `SLOT` and of the result. The spec's
decision D13. -/
def Obligations.SlotAndResultCodes : Prop :=
  slotBits none = 0b111#3 ∧ slotBits (some 0) = 0b000#3 ∧ slotBits (some 1) = 0b001#3 ∧
  slotBits (some 2) = 0b010#3 ∧ slotBits (some 3) = 0b011#3 ∧
  (∀ v : SlotIndex, slotOfBits (slotBits v) = some v) ∧
  slotOfBits 0b100#3 = none ∧ slotOfBits 0b101#3 = none ∧ slotOfBits 0b110#3 = none ∧
  resultCode .ok = 0b0#1 ∧ resultCode .invalidBreakpointRequest = 0b1#1

/-! ### Lives, and every address width -/

/-- 70_reset_and_hazards.md, sections 1 and 2, and 10_state.md, section 2: every step keeps it that an instance is
Armed only during its life and that the inputs still to come complete every life, each reset standing at the start
of one or after RELEASE. -/
def Obligations.LifetimesKeptByEveryStep : Prop :=
  (∀ s t : State, Safety.armedInLife s → step s = .next t → Safety.armedInLife t) ∧
  (∀ s t : State, Safety.lifetimes s → step s = .next t → Safety.lifetimes t)

/-- 00_scope.md, section 3, `AW`: `exec` and `step` are the machine of every address width at the one the host's
interface fixes (log 1), and at every width each command of a bound instance completes with its command function's
output. -/
def Obligations.EveryAddressWidth : Prop :=
  (∀ (i : Instr) (s : State), exec i s = execAt i s) ∧ (∀ s : State, step s = stepAt s) ∧
  (∀ (aw : Nat) (s : State aw) (x : Instance) (k : Context aw) (i : Instr aw)
      (f : SlotIndex → Bus aw → CommandOut aw) (n : Nat) (rest : List (Input aw)),
    s.inputs = .call n i :: rest ∨ (∃ w, decode w = i ∧ s.inputs = .word n w :: rest) → bound s n x k →
    ((∃ a w c, i = .activate a w c ∧ f = activate a w c) ∨ (i = .deactivate ∧ f = deactivate) ∨
      (i = .release ∧ f = release)) →
    ∃ t, stepAt s = .next t ∧ t.insts[n]? = some ⟨(f x.slot ⟨k, []⟩).slot, x.ctx⟩ ∧
      t.ctxs[x.ctx]? = some (f x.slot ⟨k, []⟩).bus.ctx ∧ t.inputs = rest ∧
      t.log = .command n i (f x.slot ⟨k, []⟩).result (f x.slot ⟨k, []⟩).bus.events :: s.log)
end

