-- ==== Sys2Proof/Laws/Bits.lean ====
section
/-! SUPPORT. What the bit-field merge does to one bit and to a slice, the fields of the two image transformers,
and what the allocator answers. -/

namespace Sys2Proof.Machine

/-- The merge, bit by bit: inside the range the new value's bits, outside it the word's. -/
theorem getLsbD_setBits (w : Word) (pos n v i : Nat) (hi : i < CW) :
    (setBits w pos n v).getLsbD i =
      if pos ≤ i ∧ i < pos + n then v.testBit (i - pos) else w.getLsbD i := by
  have hi' : i < 32 := hi
  simp only [setBits, fieldMask, fieldValue, BitVec.getLsbD_or, BitVec.getLsbD_and, BitVec.getLsbD_not,
    BitVec.getLsbD_ofNat, Nat.testBit_shiftLeft, Nat.testBit_two_pow_sub_one, Nat.testBit_mod_two_pow]
  by_cases h1 : pos ≤ i <;> by_cases h2 : i < pos + n
  · have : i - pos < n := by omega
    simp [h1, h2, this, hi']
  · have : ¬ i - pos < n := by omega
    simp [h1, h2, this, hi']
  · simp [h1, hi']
  · simp [h1, hi']

/-- A slice the merge does not reach reads as before. -/
theorem extract_setBits_disjoint (w : Word) {pos n q m : Nat} (v : Nat) (hq : q + m ≤ CW)
    (h : pos + n ≤ q ∨ q + m ≤ pos) :
    (setBits w pos n v).extractLsb' q m = w.extractLsb' q m := by
  ext i hi
  have : ¬ (pos ≤ q + i ∧ q + i < pos + n) := by omega
  simp [BitVec.getElem_extractLsb', getLsbD_setBits w pos n v (q + i) (by omega), this]

/-- A slice inside the merged range reads the new value's bits. -/
theorem extract_setBits_inside (w : Word) {pos n q m : Nat} (v : Nat) (hq : q + m ≤ CW)
    (h1 : pos ≤ q) (h2 : q + m ≤ pos + n) :
    (setBits w pos n v).extractLsb' q m = BitVec.ofNat m (v >>> (q - pos)) := by
  ext i hi
  have : pos ≤ q + i ∧ q + i < pos + n := by omega
  have e : q + i - pos = q - pos + i := by omega
  rw [BitVec.getElem_extractLsb', getLsbD_setBits w pos n v (q + i) (by omega), if_pos this, e,
    ← BitVec.getLsbD_eq_getElem, BitVec.getLsbD_ofNat, Nat.testBit_shiftRight]
  simp [hi]

/-- Bits outside every range of a slot: what the two transformers never touch. -/
theorem slot_ranges (s t : Slot) (h : s ≠ t) :
    (enOff s + 2 ≤ enOff t ∨ enOff t + 2 ≤ enOff s) ∧ (clOff s + 4 ≤ clOff t ∨ clOff t + 4 ≤ clOff s) ∧
    enOff s + 2 ≤ 8 ∧ 16 ≤ clOff s ∧ clOff s + 4 ≤ CW ∧ enOff t + 2 ≤ 8 ∧ 16 ≤ clOff t ∧ clOff t + 4 ≤ CW := by
  have hs := s.isLt; have ht := t.isLt
  have hne : s.val ≠ t.val := fun e => h (Fin.ext e)
  simp only [enOff, clOff, CW, NSLOT] at *
  omega

theorem slot_range (s : Slot) : enOff s + 2 ≤ 8 ∧ 16 ≤ clOff s ∧ clOff s + 4 ≤ CW := by
  have hs := s.isLt
  simp only [enOff, clOff, CW, NSLOT] at *
  omega

/-! ### Fields after CLEAR_ENABLE -/

theorem getLsbD_clearEnable (dc : Word) (s : Slot) (i : Nat) (hi : i < CW) :
    (clearEnable dc s).getLsbD i = (if enOff s ≤ i ∧ i < enOff s + 2 then false else dc.getLsbD i) := by
  rw [clearEnable, getLsbD_setBits _ _ _ _ _ hi]
  simp [enW, enClear]

@[simp] theorem enOf_clearEnable_same (dc : Word) (s : Slot) : enOf (clearEnable dc s) s = 0#2 := by
  have h := slot_range s
  rw [enOf, clearEnable, extract_setBits_inside _ _ (by simp only [CW, enW]; omega) (by omega) (by simp [enW])]
  simp [enClear]

theorem enOf_clearEnable_ne (dc : Word) {s t : Slot} (h : t ≠ s) :
    enOf (clearEnable dc s) t = enOf dc t := by
  have := slot_ranges s t (Ne.symm h)
  rw [enOf, clearEnable, extract_setBits_disjoint _ _ (by simp only [CW, enW]; omega) (by simp only [enW]; omega)]; rfl

@[simp] theorem clOf_clearEnable (dc : Word) (s t : Slot) : clOf (clearEnable dc s) t = clOf dc t := by
  have h := slot_range s; have h' := slot_range t
  rw [clOf, clearEnable, extract_setBits_disjoint _ _ h'.2.2 (by simp only [enW]; omega)]; rfl

/-! ### Fields after PACK_SLOT -/

theorem getLsbD_packSlot (dc : Word) (s : Slot) (w : Width) (c : Condition) (i : Nat) (hi : i < CW) :
    (packSlot dc s w c).getLsbD i =
      if enOff s ≤ i ∧ i < enOff s + 2 then enSet.testBit (i - enOff s)
      else if clOff s ≤ i ∧ i < clOff s + 4 then (encCl w c).toNat.testBit (i - clOff s)
      else dc.getLsbD i := by
  rw [packSlot, getLsbD_setBits _ _ _ _ _ hi, getLsbD_setBits _ _ _ _ _ hi]

@[simp] theorem enOf_packSlot_same (dc : Word) (s : Slot) (w : Width) (c : Condition) :
    enOf (packSlot dc s w c) s = 1#2 := by
  have h := slot_range s
  rw [enOf, packSlot, extract_setBits_inside _ _ (by simp only [CW, enW]; omega) (by omega) (by simp [enW])]
  simp [enSet]

theorem enOf_packSlot_ne (dc : Word) {s t : Slot} (w : Width) (c : Condition) (h : t ≠ s) :
    enOf (packSlot dc s w c) t = enOf dc t := by
  have := slot_ranges s t (Ne.symm h)
  rw [enOf, packSlot, extract_setBits_disjoint _ _ (by simp only [CW, enW]; omega) (by simp only [enW]; omega),
    extract_setBits_disjoint _ _ (by simp only [CW, enW]; omega) (by simp only [clW, enW]; omega)]; rfl

theorem clOf_packSlot_ne (dc : Word) {s t : Slot} (w : Width) (c : Condition) (h : t ≠ s) :
    clOf (packSlot dc s w c) t = clOf dc t := by
  have := slot_ranges s t (Ne.symm h)
  rw [clOf, packSlot, extract_setBits_disjoint _ _ (by simp only [clW]; omega) (by simp only [enW]; omega),
    extract_setBits_disjoint _ _ (by simp only [clW]; omega) (by simp only [clW]; omega)]; rfl

@[simp] theorem clOf_packSlot_same (dc : Word) (s : Slot) (w : Width) (c : Condition) :
    clOf (packSlot dc s w c) s = encCl w c := by
  have h := slot_range s
  rw [clOf, packSlot, extract_setBits_disjoint _ _ h.2.2 (by simp only [enW]; omega),
    extract_setBits_inside _ _ h.2.2 (by omega) (by simp [clW])]
  simp

@[simp] theorem condOf_packSlot_same (dc : Word) (s : Slot) (w : Width) (c : Condition) :
    condOf (packSlot dc s w c) s = encCond c := by
  have h := slot_range s
  rw [condOf, packSlot, extract_setBits_disjoint _ _ (by omega) (by simp only [enW]; omega),
    extract_setBits_inside _ _ (by omega) (by omega) (by simp only [clW]; omega)]
  cases w <;> cases c <;> simp [encCl, encLen, encCond]

@[simp] theorem lenOf_packSlot_same (dc : Word) (s : Slot) (w : Width) (c : Condition) :
    lenOf (packSlot dc s w c) s = encLen w := by
  have h := slot_range s
  rw [lenOf, packSlot, extract_setBits_disjoint _ _ (by omega) (by simp only [enW]; omega),
    extract_setBits_inside _ _ (by omega) (by omega) (by simp only [clW]; omega)]
  cases w <;> cases c <;> simp [encCl, encLen, encCond]

/-! ### The allocator -/

@[simp] theorem slotFree_clearEnable_same (dc : Word) (s : Slot) : slotFree (clearEnable dc s) s = true := by
  simp [slotFree]

theorem slotFree_clearEnable_ne (dc : Word) {s t : Slot} (h : t ≠ s) :
    slotFree (clearEnable dc s) t = slotFree dc t := by
  simp [slotFree, enOf_clearEnable_ne dc h]

@[simp] theorem slotFree_packSlot_same (dc : Word) (s : Slot) (w : Width) (c : Condition) :
    slotFree (packSlot dc s w c) s = false := by
  simp [slotFree]

theorem slotFree_packSlot_ne (dc : Word) {s t : Slot} (w : Width) (c : Condition) (h : t ≠ s) :
    slotFree (packSlot dc s w c) t = slotFree dc t := by
  simp [slotFree, enOf_packSlot_ne dc w c h]

/-- What FIRST_FREE answers when it answers a slot. -/
theorem firstFree_some {dc : Word} {s : Slot} (h : firstFree dc = some s) :
    slotFree dc s = true ∧ ∀ t, t < s → slotFree dc t = false := by
  unfold firstFree at h
  split at h
  · cases h; exact ⟨by assumption, fun t ht => absurd ht (by simp)⟩
  · split at h
    · cases h
      refine ⟨by assumption, fun t ht => ?_⟩
      have : t = 0 := by revert t; decide
      subst this; simp_all
    · split at h
      · cases h
        refine ⟨by assumption, fun t ht => ?_⟩
        have : t = 0 ∨ t = 1 := by revert t; decide
        rcases this with rfl | rfl <;> simp_all
      · split at h
        · cases h
          refine ⟨by assumption, fun t ht => ?_⟩
          have : t = 0 ∨ t = 1 ∨ t = 2 := by revert t; decide
          rcases this with rfl | rfl | rfl <;> simp_all
        · cases h

/-- FIRST_FREE answers `none` when no slot is free. -/
theorem firstFree_none {dc : Word} (h : firstFree dc = none) (s : Slot) : slotFree dc s = false := by
  unfold firstFree at h
  repeat' split at h
  all_goals try cases h
  have : s = 0 ∨ s = 1 ∨ s = 2 ∨ s = 3 := by revert s; decide
  rcases this with rfl | rfl | rfl | rfl <;> simp_all

/-- A free slot makes FIRST_FREE answer. -/
theorem firstFree_isSome {dc : Word} {s : Slot} (h : slotFree dc s = true) : ∃ t, firstFree dc = some t := by
  cases e : firstFree dc with
  | some t => exact ⟨t, rfl⟩
  | none => simp [firstFree_none e s] at h

end Sys2Proof.Machine
end

