-- ==== Sys2Proof/Laws/State.lean ====
section
/-! SUPPORT. One lemma per field per update of the state, the context and the accessor. -/

namespace Sys2Proof.Machine

variable {aw : Nat} (s : State aw) (n k : Nat) (v : SlotIndex) (c : Context aw) (o : Obs aw)
  (rest : List (Input aw))

@[simp] theorem writeSlot_insts :
    (writeSlot s n v).insts = s.insts.modify n (fun x => { x with slot := v }) := rfl
@[simp] theorem writeSlot_ctxs : (writeSlot s n v).ctxs = s.ctxs := rfl
@[simp] theorem writeSlot_cur : (writeSlot s n v).cur = s.cur := rfl
@[simp] theorem writeSlot_inputs : (writeSlot s n v).inputs = s.inputs := rfl
@[simp] theorem writeSlot_log : (writeSlot s n v).log = s.log := rfl

@[simp] theorem writeCtx_insts : (writeCtx s k c).insts = s.insts := rfl
@[simp] theorem writeCtx_ctxs : (writeCtx s k c).ctxs = s.ctxs.set k c := rfl
@[simp] theorem writeCtx_cur : (writeCtx s k c).cur = s.cur := rfl
@[simp] theorem writeCtx_inputs : (writeCtx s k c).inputs = s.inputs := rfl
@[simp] theorem writeCtx_log : (writeCtx s k c).log = s.log := rfl

@[simp] theorem record_insts : (record s o).insts = s.insts := rfl
@[simp] theorem record_ctxs : (record s o).ctxs = s.ctxs := rfl
@[simp] theorem record_cur : (record s o).cur = s.cur := rfl
@[simp] theorem record_inputs : (record s o).inputs = s.inputs := rfl
@[simp] theorem record_log : (record s o).log = o :: s.log := rfl

@[simp] theorem present_insts : (present s n rest).insts = s.insts := rfl
@[simp] theorem present_ctxs : (present s n rest).ctxs = s.ctxs := rfl
@[simp] theorem present_cur : (present s n rest).cur = n := rfl
@[simp] theorem present_inputs : (present s n rest).inputs = rest := rfl
@[simp] theorem present_log : (present s n rest).log = s.log := rfl

variable (d : Context aw) (t : Slot) (a : BitVec aw) (w : Word) (b : Bus aw)

@[simp] theorem writeDa_dc : (writeDa d t a).dc = d.dc := rfl
@[simp] theorem writeDc_dc : (writeDc d w).dc = w := rfl
@[simp] theorem writeDc_da : (writeDc d w).da = d.da := rfl
@[simp] theorem daOf_writeDc (u : Slot) : daOf (writeDc d w) u = daOf d u := rfl

@[simp] theorem daOf_writeDa_same : daOf (writeDa d t a) t = a := by
  simp [daOf, writeDa]

theorem daOf_writeDa_ne {u : Slot} (h : u ≠ t) : daOf (writeDa d t a) u = daOf d u := by
  have hv : t.val ≠ u.val := fun e => h (Fin.ext e.symm)
  simp [daOf, writeDa, Vector.getElem_set_ne, hv]

@[simp] theorem ctxGet_fst : (ctxGet b).1 = b.ctx := rfl
@[simp] theorem ctxGet_ctx : (ctxGet b).2.ctx = b.ctx := rfl
@[simp] theorem ctxGet_events : (ctxGet b).2.events = b.events ++ [.get] := rfl
@[simp] theorem ctxSet_ctx : (ctxSet d b).ctx = d := rfl
@[simp] theorem ctxSet_events : (ctxSet d b).events = b.events ++ [.set] := rfl

/-! ### The owner's record of a life -/

@[simp] theorem inLife_nil : inLife n ([] : List (Obs aw)) = false := rfl
@[simp] theorem inLife_access (m : Nat) (x : Access aw) (p : Bool) (l : List (Obs aw)) :
    inLife n (.access m x p :: l) = inLife n l := rfl
@[simp] theorem inLife_command_same (i : Instr aw) (r : Result) (ev : List CtxEvent) (l : List (Obs aw)) :
    inLife n (.command n i r ev :: l) = !i.isRelease := by simp [inLife]
theorem inLife_command_ne {m : Nat} (h : m ≠ n) (i : Instr aw) (r : Result) (ev : List CtxEvent)
    (l : List (Obs aw)) : inLife n (.command m i r ev :: l) = inLife n l := by simp [inLife, h]

/-- An instance after a write of one instance's `SLOT`. -/
theorem getElem?_writeSlot (m : Nat) :
    (writeSlot s n v).insts[m]? =
      if m = n then (s.insts[m]?).map (fun x => { x with slot := v }) else s.insts[m]? := by
  simp only [writeSlot_insts, List.getElem?_modify]
  by_cases h : n = m
  · subst h; simp
  · simp [h, Ne.symm h]

/-- Writing back the `SLOT` an instance has changes nothing. -/
theorem writeSlot_self {x : Instance} (h : s.insts[n]? = some x) : writeSlot s n x.slot = s := by
  have : s.insts.modify n (fun y => { y with slot := x.slot }) = s.insts := by
    apply List.ext_getElem?
    intro m
    rw [List.getElem?_modify]
    by_cases e : n = m
    · subst e; simp [h]
    · simp [e]
  simp [writeSlot, this]

/-- Writing back the context that stands there changes nothing. -/
theorem writeCtx_self {c : Context aw} (h : s.ctxs[k]? = some c) : writeCtx s k c = s := by
  have : s.ctxs.set k c = s.ctxs := by
    obtain ⟨hk, rfl⟩ := List.getElem?_eq_some_iff.mp h
    exact List.set_getElem_self hk
  simp [writeCtx, this]

end Sys2Proof.Machine
end

