-- ==== Sys2Proof/Laws/Commands.lean ====
section
/-! SUPPORT. What validation lets through, what each command function can give back, and what one step of the
machine can do: each said once, to be cited instead of unfolding. -/

namespace Sys2Proof.Machine

/-! ### Validation -/

theorem legalWidth_eq_some {w : Nat} {lw : Width} : legalWidth w = some lw ↔ w = widthBytes lw := by
  constructor
  · intro h
    unfold legalWidth at h
    split at h <;> cases h <;> rfl
  · rintro rfl; cases lw <;> rfl

theorem decCond_eq_some {c : CondCode} {lc : Condition} : decCond c = some lc ↔ c = encCond lc := by
  revert c; cases lc <;> decide

theorem decLen_eq_some {l : BitVec 2} {lw : Width} : decLen l = some lw ↔ l = encLen lw := by
  revert l; cases lw <;> decide

@[simp] theorem decCond_encCond (c : Condition) : decCond (encCond c) = some c := decCond_eq_some.mpr rfl
@[simp] theorem decLen_encLen (w : Width) : decLen (encLen w) = some w := decLen_eq_some.mpr rfl
@[simp] theorem legalWidth_widthBytes (w : Width) : legalWidth (widthBytes w) = some w :=
  legalWidth_eq_some.mpr rfl

/-- What validation lets through: the operands themselves, each within R90's conjuncts. -/
theorem request_eq_some {aw : Nat} {a : BitVec aw} {w : Nat} {c : CondCode} {r : Request aw} :
    request a w c = some r ↔
      r.addr = a ∧ w = widthBytes r.width ∧ c = encCond r.cond ∧ a ≠ 0#aw ∧ a.toNat % w = 0 := by
  unfold request
  cases hw : legalWidth w with
  | none =>
    simp only [reduceCtorEq, false_iff]
    rintro ⟨-, rfl, -⟩; simp at hw
  | some lw =>
    rw [legalWidth_eq_some] at hw; subst hw
    cases hc : decCond c with
    | none =>
      simp only [reduceCtorEq, false_iff]
      rintro ⟨-, -, rfl, -⟩; simp at hc
    | some lc =>
      rw [decCond_eq_some] at hc; subst hc
      obtain ⟨ra, rw', rc⟩ := r
      simp only [Option.ite_none_right_eq_some, Option.some.injEq, Request.mk.injEq]
      constructor
      · rintro ⟨⟨h1, h2⟩, rfl, rfl, rfl⟩; exact ⟨rfl, rfl, rfl, h1, h2⟩
      · rintro ⟨rfl, hw, hc, h1, h2⟩
        exact ⟨⟨h1, h2⟩, rfl, by cases lw <;> cases rw' <;> simp_all [widthBytes],
          by cases lc <;> cases rc <;> simp_all [encCond]⟩

theorem valid_eq_true {aw : Nat} {a : BitVec aw} {w : Nat} {c : CondCode} :
    valid a w c = true ↔ ∃ r, request a w c = some r := by
  simp [valid, Option.isSome_iff_exists]

theorem valid_eq_false {aw : Nat} {a : BitVec aw} {w : Nat} {c : CondCode} :
    valid a w c = false ↔ request a w c = none := by
  simp [valid]

/-! ### The command functions -/

section functions
variable {aw : Nat} (a : BitVec aw) (w : Nat) (c : CondCode) (slot : SlotIndex) (b : Bus aw)

/-- ACTIVATE of an invalid request: the error, and nothing else. -/
theorem activate_invalid (h : request a w c = none) : activate a w c slot b = raiseInvalid slot b := by
  simp [activate, h]

/-- ACTIVATE of a legal request with no free slot: one Get, and the error. -/
theorem activate_full {r : Request aw} (h : request a w c = some r)
    (hf : firstFree (releasedImage slot b.ctx.dc) = none) :
    activate a w c slot b = raiseInvalid slot (ctxGet b).2 := by
  simp [activate, h, hf]

/-- ACTIVATE that succeeds on slot `s`. -/
theorem activate_ok {r : Request aw} {s : Slot} (h : request a w c = some r)
    (hf : firstFree (releasedImage slot b.ctx.dc) = some s) :
    activate a w c slot b = finishOk (some s) (ctxSet
      (writeDc (writeDa b.ctx s r.addr) (packSlot (releasedImage slot b.ctx.dc) s r.width r.cond))
      (ctxGet b).2) := by
  simp [activate, h, hf]

/-- Everything ACTIVATE can give back. -/
theorem activate_cases :
    (request a w c = none ∧ activate a w c slot b = raiseInvalid slot b) ∨
    (∃ r, request a w c = some r ∧ firstFree (releasedImage slot b.ctx.dc) = none ∧
      activate a w c slot b = raiseInvalid slot (ctxGet b).2) ∨
    (∃ r s, request a w c = some r ∧ firstFree (releasedImage slot b.ctx.dc) = some s ∧
      activate a w c slot b = finishOk (some s) (ctxSet
        (writeDc (writeDa b.ctx s r.addr) (packSlot (releasedImage slot b.ctx.dc) s r.width r.cond))
        (ctxGet b).2)) := by
  cases hr : request a w c with
  | none => exact .inl ⟨rfl, activate_invalid a w c slot b hr⟩
  | some r =>
    cases hf : firstFree (releasedImage slot b.ctx.dc) with
    | none => exact .inr (.inl ⟨r, rfl, rfl, activate_full a w c slot b hr hf⟩)
    | some s => exact .inr (.inr ⟨r, s, rfl, rfl, activate_ok a w c slot b hr hf⟩)

/-- DEACTIVATE while Unarmed. -/
@[simp] theorem deactivate_none : deactivate none b = finishOk none b := rfl

/-- DEACTIVATE while Armed on slot `t`. -/
@[simp] theorem deactivate_some (t : Slot) :
    deactivate (some t) b =
      finishOk none (ctxSet (writeDc b.ctx (clearEnable b.ctx.dc t)) (ctxGet b).2) := rfl

@[simp] theorem release_eq_deactivate : release slot b = deactivate slot b := rfl

@[simp] theorem releasedImage_none (dc : Word) : releasedImage none dc = dc := rfl
@[simp] theorem releasedImage_some (dc : Word) (t : Slot) : releasedImage (some t) dc = clearEnable dc t := rfl

@[simp] theorem raiseInvalid_slot : (raiseInvalid slot b).slot = slot := rfl
@[simp] theorem raiseInvalid_bus : (raiseInvalid slot b).bus = b := rfl
@[simp] theorem raiseInvalid_result : (raiseInvalid slot b).result = .invalidBreakpointRequest := rfl
@[simp] theorem finishOk_slot : (finishOk slot b).slot = slot := rfl
@[simp] theorem finishOk_bus : (finishOk slot b).bus = b := rfl
@[simp] theorem finishOk_result : (finishOk slot b).result = .ok := rfl

end functions

/-! ### Running a command -/

section running
variable {aw : Nat} (i : Instr aw) (f : SlotIndex → Bus aw → CommandOut aw) (s : State aw)

/-- A command of a bound instance goes through. -/
theorem runCommand_bound {x : Instance} {c : Context aw} (h : bound s s.cur x c) :
    runCommand i f s = .next (commit s x.ctx i (f x.slot ⟨c, []⟩)) := by
  simp [runCommand, h.1, h.2]

/-- Everything a command that gives a next state can do. -/
theorem runCommand_next {t : State aw} (h : runCommand i f s = .next t) :
    ∃ x c, bound s s.cur x c ∧ t = commit s x.ctx i (f x.slot ⟨c, []⟩) := by
  unfold runCommand at h
  split at h
  · cases h
  · next x hx =>
    split at h
    · cases h
    · next c hc => cases h; exact ⟨x, c, ⟨hx, hc⟩, rfl⟩

variable (k : Nat) (o : CommandOut aw)

@[simp] theorem commit_insts :
    (commit s k i o).insts = s.insts.modify s.cur (fun x => { x with slot := o.slot }) := rfl
@[simp] theorem commit_ctxs : (commit s k i o).ctxs = s.ctxs.set k o.bus.ctx := rfl
@[simp] theorem commit_cur : (commit s k i o).cur = s.cur := rfl
@[simp] theorem commit_inputs : (commit s k i o).inputs = s.inputs := rfl
@[simp] theorem commit_log :
    (commit s k i o).log = .command s.cur i o.result o.bus.events :: s.log := rfl

theorem getElem?_commit_insts (m : Nat) :
    (commit s k i o).insts[m]? =
      if m = s.cur then (s.insts[m]?).map (fun x => { x with slot := o.slot }) else s.insts[m]? :=
  getElem?_writeSlot s s.cur o.slot m

theorem getElem?_commit_ctxs (m : Nat) :
    (commit s k i o).ctxs[m]? =
      if m = k then (s.ctxs[m]?).map (fun _ => o.bus.ctx) else s.ctxs[m]? := by
  rw [commit_ctxs, List.getElem?_set]
  by_cases h : k = m
  · subst h
    by_cases hk : k < s.ctxs.length
    · simp [hk]
    · simp [hk]
  · simp [h, Ne.symm h]

/-- The instance after its command. -/
theorem commit_inst_self {x : Instance} {c : Context aw} (h : bound s s.cur x c) :
    (commit s k i o).insts[s.cur]? = some ⟨o.slot, x.ctx⟩ := by
  rw [getElem?_commit_insts, h.1]; simp

/-- Every other instance after the command. -/
theorem commit_inst_ne {m : Nat} (h : m ≠ s.cur) : (commit s k i o).insts[m]? = s.insts[m]? := by
  rw [getElem?_commit_insts, if_neg h]

/-- The context after the command. -/
theorem commit_ctx_self {x : Instance} {c : Context aw} (h : bound s s.cur x c) :
    (commit s x.ctx i o).ctxs[x.ctx]? = some o.bus.ctx := by
  rw [getElem?_commit_ctxs, h.2]; simp

/-- Every other context after the command. -/
theorem commit_ctx_ne {m : Nat} (h : m ≠ k) : (commit s k i o).ctxs[m]? = s.ctxs[m]? := by
  rw [getElem?_commit_ctxs, if_neg h]

/-- `SLOT` after the command. -/
theorem readSlot_commit {x : Instance} {c : Context aw} (h : bound s s.cur x c) :
    readSlot (commit s k i o) s.cur = some o.slot := by
  rw [readSlot, commit_inst_self i s k o h]; rfl

/-- The instance is still bound to its context after its command. -/
theorem bound_commit {x : Instance} {c : Context aw} (h : bound s s.cur x c) :
    bound (commit s x.ctx i o) s.cur ⟨o.slot, x.ctx⟩ o.bus.ctx :=
  ⟨commit_inst_self i s x.ctx o h, commit_ctx_self i s o h⟩

/-- Two commands in a row of one instance: the second's outputs stand. -/
theorem commit_commit (i' : Instr aw) (o' : CommandOut aw) :
    (commit (commit s k i o) k i' o').insts = (commit s k i o').insts ∧
    (commit (commit s k i o) k i' o').ctxs = (commit s k i o').ctxs := by
  refine ⟨?_, by simp⟩
  apply List.ext_getElem?
  intro m
  by_cases h : m = s.cur
  · subst h
    simp only [getElem?_commit_insts, commit_cur, if_true, Option.map_map]
    rfl
  · simp only [getElem?_commit_insts, commit_cur, h, if_false]

/-- A command that leaves `SLOT` and the context as they were only adds an observation. -/
theorem commit_unchanged {x : Instance} {c : Context aw} (h : bound s s.cur x c) (hs : o.slot = x.slot)
    (hc : o.bus.ctx = c) :
    commit s x.ctx i o = record s (.command s.cur i o.result o.bus.events) := by
  have h2 := writeCtx_self (writeSlot s s.cur x.slot) x.ctx (c := c) (by simpa using h.2)
  rw [commit, hs, hc, h2, writeSlot_self s s.cur h.1]

end running

/-- The command function an instruction runs, if it spells a command. -/
def commandOf {aw : Nat} : Instr aw → Option (SlotIndex → Bus aw → CommandOut aw)
  | .activate a w c => some (activate a w c)
  | .deactivate => some deactivate
  | .release => some release
  | .reservedOp00 => none

/-- Everything a meaning can give as a next state, at any address width. -/
theorem execAt_next {aw : Nat} {i : Instr aw} {s t : State aw} (h : execAt i s = .next t) :
    ∃ f x c, commandOf i = some f ∧ bound s s.cur x c ∧ t = commit s x.ctx i (f x.slot ⟨c, []⟩) := by
  cases i with
  | activate a w c =>
    obtain ⟨x, k, hb, ht⟩ := runCommand_next _ _ _ h
    exact ⟨_, x, k, rfl, hb, ht⟩
  | deactivate =>
    obtain ⟨x, k, hb, ht⟩ := runCommand_next _ _ _ h
    exact ⟨_, x, k, rfl, hb, ht⟩
  | release =>
    obtain ⟨x, k, hb, ht⟩ := runCommand_next _ _ _ h
    exact ⟨_, x, k, rfl, hb, ht⟩
  | reservedOp00 => cases h

/-- A command of a bound instance always goes through, at any address width. -/
theorem execAt_bound {aw : Nat} {i : Instr aw} {s : State aw} {f} {x : Instance} {c : Context aw}
    (hf : commandOf i = some f) (h : bound s s.cur x c) :
    execAt i s = .next (commit s x.ctx i (f x.slot ⟨c, []⟩)) := by
  cases i <;> cases hf <;> exact runCommand_bound _ _ _ h

/-- `exec` is the machine of every width at the one the host's interface fixes. -/
theorem exec_eq_execAt (i : Instr) (s : State) : exec i s = execAt i s := by cases i <;> rfl

theorem step_eq_stepAt (s : State) : step s = stepAt s := by
  simp [step, stepAt, show exec = execAt from funext fun i => funext fun s => exec_eq_execAt i s]

/-- Everything `exec` can give as a next state. -/
theorem exec_next {i : Instr} {s t : State} (h : exec i s = .next t) :
    ∃ f x c, commandOf i = some f ∧ bound s s.cur x c ∧ t = commit s x.ctx i (f x.slot ⟨c, []⟩) :=
  execAt_next (exec_eq_execAt i s ▸ h)

/-- A command of a bound instance always goes through. -/
theorem exec_bound {i : Instr} {s : State} {f} {x : Instance} {c : Ctx} (hf : commandOf i = some f)
    (h : bound s s.cur x c) : exec i s = .next (commit s x.ctx i (f x.slot ⟨c, []⟩)) :=
  (exec_eq_execAt i s).trans (execAt_bound hf h)

/-! ### One step -/

/-- Reset is admitted exactly while Unarmed and not in a life. -/
theorem resetAdmitted_eq_true {aw : Nat} {s : State aw} {n : Nat} {x : Instance} :
    resetAdmitted s n x = true ↔ x.slot = none ∧ inLife n s.log = false := by
  simp [resetAdmitted]

/-- Everything a reset input that goes through does. -/
theorem createInstance_next {aw : Nat} {n : Nat} {s t : State aw} (h : createInstance n s = .next t) :
    ∃ x, s.insts[n]? = some x ∧ x.slot = none ∧ inLife n s.log = false ∧ t = writeSlot s n none := by
  unfold createInstance at h
  split at h
  · cases h
  · next x hx =>
    split at h
    · next ha =>
      simp only [resetInstance, hx] at h
      obtain ⟨hs, hl⟩ := resetAdmitted_eq_true.mp ha
      cases h; exact ⟨x, hx, hs, hl, rfl⟩
    · cases h

/-- Everything a step that gives a next state can do. -/
theorem stepAt_next {aw : Nat} {s t : State aw} (h : stepAt s = .next t) :
    (s.inputs = [] ∧ t = s) ∨
    (∃ n i rest f x c, (s.inputs = .call n i :: rest ∨ ∃ w, s.inputs = .word n w :: rest ∧ decode w = i) ∧
      commandOf i = some f ∧ bound s n x c ∧
      t = commit (present s n rest) x.ctx i (f x.slot ⟨c, []⟩)) ∨
    (∃ n rest x, s.inputs = .reset n :: rest ∧ s.insts[n]? = some x ∧ x.slot = none ∧
      inLife n s.log = false ∧ t = writeSlot (present s s.cur rest) n none) ∨
    (∃ k v rest c, s.inputs = .foreignDc k v :: rest ∧ s.ctxs[k]? = some c ∧
      t = writeCtx (present s s.cur rest) k (writeDc c v)) ∨
    (∃ k d v rest c, s.inputs = .foreignDa k d v :: rest ∧ s.ctxs[k]? = some c ∧
      t = writeCtx (present s s.cur rest) k (writeDa c d v)) ∨
    (∃ k a rest c, s.inputs = .access k a :: rest ∧ s.ctxs[k]? = some c ∧
      t = record (present s s.cur rest) (.access k a (watchMatch c a))) := by
  unfold stepAt stepWith at h
  split at h
  · next e => cases h; exact .inl ⟨e, rfl⟩
  · next n w rest e =>
    obtain ⟨f, x, c, hf, hb, ht⟩ := execAt_next h
    exact .inr (.inl ⟨n, _, rest, f, x, c, .inr ⟨w, e, rfl⟩, hf, hb, ht⟩)
  · next n i rest e =>
    obtain ⟨f, x, c, hf, hb, ht⟩ := execAt_next h
    exact .inr (.inl ⟨n, i, rest, f, x, c, .inl e, hf, hb, ht⟩)
  · next n rest e =>
    obtain ⟨x, hx, hs, hl, ht⟩ := createInstance_next h
    exact .inr (.inr (.inl ⟨n, rest, x, e, hx, hs, hl, ht⟩))
  · next k v rest e =>
    unfold foreignWriteDc foreignWrite at h
    split at h <;> cases h
    exact .inr (.inr (.inr (.inl ⟨k, v, rest, _, e, by assumption, rfl⟩)))
  · next k d v rest e =>
    unfold foreignWriteDa foreignWrite at h
    split at h <;> cases h
    exact .inr (.inr (.inr (.inr (.inl ⟨k, d, v, rest, _, e, by assumption, rfl⟩))))
  · next k a rest e =>
    unfold evaluateAccess at h
    split at h <;> cases h
    exact .inr (.inr (.inr (.inr (.inr ⟨k, a, rest, _, e, by assumption, rfl⟩))))

/-- A step that gives a next state gives what `stepAt_next` says. -/
theorem stepAt_of_step {s t : State} (h : step s = .next t) : stepAt s = .next t := step_eq_stepAt s ▸ h

end Sys2Proof.Machine
end

