-- ==== Sys2Proof/Laws/Decode.lean ====
section
/-! SUPPORT. The fields of a packed command word read back. -/

namespace Sys2Proof

variable {aw : Nat} (a : BitVec aw) (w : BitVec 8) (c : CondCode) (op : BitVec 2)

@[simp] theorem opField_packCmd : opField (packCmd a w c op) = op := by
  ext i hi
  simp only [opField, packCmd, BitVec.getElem_extractLsb', BitVec.getLsbD_append, Nat.zero_add]
  simp [hi]

@[simp] theorem condField_packCmd : condField (packCmd a w c op) = c := by
  ext i hi
  simp only [condField, packCmd, BitVec.getElem_extractLsb', BitVec.getLsbD_append]
  simp [hi, show ¬ 2 + i < 2 by omega]

@[simp] theorem widthField_packCmd : widthField (packCmd a w c op) = w.toNat := by
  unfold widthField
  congr 1
  ext i hi
  simp only [packCmd, BitVec.getElem_extractLsb', BitVec.getLsbD_append]
  simp [hi, show ¬ 4 + i < 2 by omega, show ¬ 4 + i - 2 < 2 by omega, show 4 + i - 2 - 2 = i by omega]

@[simp] theorem addrField_packCmd : addrField (packCmd a w c op) = a := by
  ext i hi
  simp only [addrField, packCmd, BitVec.getElem_extractLsb', BitVec.getLsbD_append]
  simp [show ¬ 12 + i < 2 by omega, show ¬ 12 + i - 2 < 2 by omega, show ¬ 12 + i - 2 - 2 < 8 by omega,
    show 12 + i - 2 - 2 - 8 = i by omega, ← BitVec.getLsbD_eq_getElem]

end Sys2Proof
end

