-- ==== Sys2Proof/Laws/PerInstr.lean ====
section
/-! SUPPORT. Statements for every instruction as syntax, one lemma per constructor. -/

namespace Sys2Proof.Laws.EncodedOp

/-- The word the encoder writes carries the instruction's `op` code of R57's table. -/
def Statement (i : Instr) : Prop := opField (encode i) = opCode i

theorem activate (addr : Addr) (width : Nat) (cond : CondCode) : Statement (.activate addr width cond) := by
  simp [Statement, encode, opCode]

theorem deactivate : Statement .deactivate := by simp [Statement, encode, opCode]

theorem release : Statement .release := by simp [Statement, encode, opCode]

theorem reservedOp00 : Statement .reservedOp00 := by simp [Statement, encode, opCode]

end Sys2Proof.Laws.EncodedOp
end

