-- ==== Sys2Proof/Laws/Watch.lean ====
section
/-! SUPPORT. The small lemmas of the settled points, and what masking a disabled slot does. -/

namespace Sys2Proof.Machine

@[simp] theorem Settled.no_and (x : Settled) : Settled.and .no x = .no := rfl
@[simp] theorem Settled.and_no (x : Settled) : Settled.and x .no = .no := by cases x <;> rfl
@[simp] theorem Settled.yes_and (x : Settled) : Settled.and .yes x = x := by cases x <;> rfl
@[simp] theorem Settled.yes_or (x : Settled) : Settled.or .yes x = .yes := rfl
@[simp] theorem Settled.or_yes (x : Settled) : Settled.or x .yes = .yes := by cases x <;> rfl
@[simp] theorem Settled.no_or (x : Settled) : Settled.or .no x = x := by cases x <;> rfl

variable {aw : Nat}

/-- A disabled slot matches no access. -/
theorem slotMatch_disabled {c : Context aw} {s : Slot} (h : slotFree c.dc s = true) (a : Access aw) :
    slotMatch c s a = .no := by
  have he : enOf c.dc s = 0b00#2 := by simpa [slotFree] using h
  simp [slotMatch, he, matchEnable]

/-- One slot that settles a match decides. -/
theorem watchMatch_settled_yes {c : Context aw} {s : Slot} {a : Access aw} (h : slotMatch c s a = .yes) :
    watchMatch c a = true := by
  have hs : settledMatch c a = .yes := by
    match s with
    | 0 | 1 | 2 | 3 => simp [settledMatch, h]
  simp [watchMatch, hs]

/-- Where every slot settles that it does not match, no trap is raised. -/
theorem watchMatch_settled_no {c : Context aw} {a : Access aw} (h : ∀ s, slotMatch c s a = .no) :
    watchMatch c a = false := by
  simp [watchMatch, settledMatch, h]

/-- Masking leaves every enable field. -/
@[simp] theorem enOf_maskSlot (s t : Slot) (c : Context aw) : enOf (maskSlot s c).dc t = enOf c.dc t := by
  unfold maskSlot
  split
  · have h := slot_range s; have h' := slot_range t
    simp only [CW] at h h'
    simp only [writeDc_dc, enOf]
    rw [extract_setBits_disjoint _ _ (by simp only [CW, enW]; omega)
      (by simp only [clW, enW]; omega)]
  · rfl

@[simp] theorem slotFree_maskSlot (s t : Slot) (c : Context aw) :
    slotFree (maskSlot s c).dc t = slotFree c.dc t := by
  simp [slotFree]

/-- Masking clears the address register of the slot named, if it is disabled, and no other. -/
theorem daOf_maskSlot (s u : Slot) (c : Context aw) :
    daOf (maskSlot s c) u = if u = s ∧ slotFree c.dc s = true then 0#aw else daOf c u := by
  unfold maskSlot
  by_cases h : slotFree c.dc s = true
  · by_cases hu : u = s
    · subst hu; simp [h]
    · simp [h, hu, daOf_writeDa_ne _ _ _ hu]
  · simp [h]

end Sys2Proof.Machine
end

