-- ==== Sys2Proof/Tests/Slice0.lean ====
section
/-! SUPPORT. The model's own tests: words, functions and single steps checked against values written in
spec/95_test_vectors.md, and for every statement with hypotheses a state and operands that meet them. -/

namespace Sys2Proof.Tests

open Sys2Proof Sys2Proof.Machine

/-! ### Well-formedness, words -/

/-- R56: 255 is the largest width a word can carry. -/
theorem test_wellFormed_width_255 : (Instr.activate 0x1000#32 255 0b01#2).wellFormed = true := by decide
theorem test_illFormed_width_256 : (Instr.activate 0x1000#32 256 0b01#2).wellFormed = false := by decide
theorem test_reserved_is_no_command : (Instr.reservedOp00 : Instr).isCommand = false := by decide

/-- S1: addr 0x1000, width 4, cond 01, op 01, written out field by field (R56). -/
theorem test_decode_activate :
    decode (0x00001000#32 ++ 0b00000100#8 ++ 0b01#2 ++ 0b01#2) = .activate 0x1000#32 4 0b01#2 := by decide
/-- S3 and P3 step 7: an illegal width and an illegal condition decode as presented. -/
theorem test_decode_illegal_width : decode 0x00001000035#44 = .activate 0x1000#32 3 0b01#2 := by decide
theorem test_decode_illegal_condition : decode 0x00001000041#44 = .activate 0x1000#32 4 0b00#2 := by decide
/-- The top bit of each field reaches its operand. -/
theorem test_decode_top_bits : decode 0x80000000809#44 = .activate 0x80000000#32 0x80 0b10#2 := by decide
/-- R57: op 10 and op 11, with the ignored fields all ones. -/
theorem test_decode_deactivate : decode 0xFFFFFFFFFFE#44 = .deactivate := by decide
theorem test_decode_release : decode 0xFFFFFFFFFFF#44 = .release := by decide
/-- R61: op 00, with the other fields all ones. -/
theorem test_decode_reserved : decode 0xFFFFFFFFFFC#44 = .reservedOp00 := by decide
/-- P2 step 1: the encoder's word. -/
theorem test_encode_activate : encode (.activate 0x7FFFFFFC#32 4 0b11#2) = 0x7FFFFFFC04D#44 := by decide
theorem test_encode_release : encode .release = 0x00000000003#44 := by decide
theorem test_table_rows :
    decodeTableWord 8 0x1 = some (.activate 0#32 0 0b00#2) ∧ decodeTableWord 8 0x2 = some .deactivate ∧
    decodeTableWord 8 0x3 = some .release ∧ decodeTableWord 8 0x0 = some .reservedOp00 := by decide

/-! ### Functions -/

/-- V1: the rows at the edges of the word and outside the intended domain. -/
theorem test_setBits_V1 :
    setBits 0xFFFFFFFF#32 16 4 0xD = 0xFFFDFFFF#32 ∧ setBits 0x00000000#32 28 4 0xF = 0xF0000000#32 ∧
    setBits 0x00000000#32 4 2 0x7 = 0x00000030#32 ∧ setBits 0xFFFFFFFF#32 30 4 0x5 = 0x7FFFFFFF#32 ∧
    setBits 0xAAAAAAAA#32 0 0 0x3 = 0xAAAAAAAA#32 := by decide

/-- V2: the six field values. -/
theorem test_encCl_V2 :
    encCl .one .write = 0x1#4 ∧ encCl .one .readOrWrite = 0x3#4 ∧ encCl .two .write = 0x5#4 ∧
    encCl .two .readOrWrite = 0x7#4 ∧ encCl .four .write = 0xD#4 ∧ encCl .four .readOrWrite = 0xF#4 := by decide

/-- V3: the edges of the address space, misalignment, and each illegal operand. -/
theorem test_valid_V3_true :
    valid 0xFFFFFFFF#32 1 0b11#2 = true ∧ valid 0xFFFFFFFE#32 2 0b01#2 = true ∧
    valid 0xFFFFFFFC#32 4 0b01#2 = true ∧ valid 0x1002#32 2 0b11#2 = true := by decide
theorem test_valid_V3_false :
    valid 0xFFFFFFFE#32 4 0b01#2 = false ∧ valid 0x1001#32 2 0b01#2 = false ∧ valid 0x1000#32 3 0b01#2 = false ∧
    valid 0x1000#32 0 0b01#2 = false ∧ valid 0x1000#32 8 0b01#2 = false ∧ valid 0x0#32 1 0b01#2 = false ∧
    valid 0x1000#32 4 0b10#2 = false := by decide

/-- V4: upper enable bits count, non-slot bits and stale codes do not. -/
theorem test_firstFree_V4 :
    firstFree 0x00000002#32 = some 1 ∧ firstFree 0x00000045#32 = some 2 ∧ firstFree 0x00000015#32 = some 3 ∧
    firstFree 0x000000AA#32 = none ∧ firstFree 0xFFFF0400#32 = some 0 := by decide

/-! ### Single steps -/

/-- One instance on one context. -/
def one (slot : SlotIndex) (dc : Word) (inputs : List Input) : State :=
  { insts := [⟨slot, 0⟩], ctxs := [⟨#v[0xA0#32, 0xB0#32, 0xC0#32, 0xD0#32], dc⟩], cur := 0, inputs := inputs,
    log := [] }

/-- Two instances on one context; the first is the current one. -/
def two (slot0 slot1 : SlotIndex) (dc : Word) (inputs : List Input) : State :=
  { insts := [⟨slot0, 0⟩, ⟨slot1, 0⟩], ctxs := [⟨#v[0xA0#32, 0xB0#32, 0xC0#32, 0xD0#32], dc⟩], cur := 0,
    inputs := inputs, log := [] }

/-- What a command told the host. -/
structure Told where
  result : Result
  events : List CtxEvent
  deriving DecidableEq, Repr

def told : Obs → Option Told
  | .command _ _ r ev => some ⟨r, ev⟩
  | .access _ _ _ => none

/-- What the host sees of an outcome: every `SLOT`, `DA[0..3]` and `DC` of context 0, what the latest command told. -/
def seen (o : Host.Outcome State Fault Refusal) :
    Option (List SlotIndex × Option (List Addr × Word) × Option Told) :=
  match o with
  | .next s => some (s.insts.map Instance.slot, s.ctxs.head?.map (fun c => (c.da.toList, c.dc)), s.log.head?.bind told)
  | .fault _ => none
  | .refused _ => none

/-- P2 step 1: past three occupied slots, to slot 2. -/
theorem test_activate_P2 :
    seen (step (one none 0xF0F00445#32 [.word 0 0x7FFFFFFC04D#44])) =
      some ([some 2], some ([0xA0#32, 0xB0#32, 0x7FFFFFFC#32, 0xD0#32], 0xFFF00455#32),
        some ⟨.ok, [.get, .set]⟩) := by decide
/-- P5 step 3: a re-arm that moves down. -/
theorem test_rearm_P5 :
    seen (step (one (some 2) 0x0D330014#32 [.word 0 0x0000400202D#44])) =
      some ([some 0], some ([0x4002#32, 0xB0#32, 0xC0#32, 0xD0#32], 0x0D370005#32),
        some ⟨.ok, [.get, .set]⟩) := by decide
/-- V7: slot 3, all bits set; only bits 7:6 fall. -/
theorem test_deactivate_V7 :
    seen (exec .deactivate (one (some 3) 0xFFFFFFFF#32 [])) =
      some ([none], some ([0xA0#32, 0xB0#32, 0xC0#32, 0xD0#32], 0xFFFFFF3F#32),
        some ⟨.ok, [.get, .set]⟩) := by decide
theorem test_deactivate_unarmed_V7 :
    seen (exec .deactivate (one none 0x12345678#32 [])) =
      some ([none], some ([0xA0#32, 0xB0#32, 0xC0#32, 0xD0#32], 0x12345678#32),
        some ⟨.ok, []⟩) := by decide
/-- P2 step 4. -/
theorem test_release_P2 :
    seen (exec .release (one (some 2) 0xF1F00455#32 [])) =
      some ([none], some ([0xA0#32, 0xB0#32, 0xC0#32, 0xD0#32], 0xF1F00445#32),
        some ⟨.ok, [.get, .set]⟩) := by decide
/-- V6: exhaustion after one Get, and a failed re-arm after none. -/
theorem test_activate_full_V6 :
    seen (exec (.activate 0x1000#32 1 0b01#2) (one none 0x55550055#32 [])) =
      some ([none], some ([0xA0#32, 0xB0#32, 0xC0#32, 0xD0#32], 0x55550055#32),
        some ⟨.invalidBreakpointRequest, [.get]⟩) := by decide
theorem test_activate_failed_rearm_V6 :
    seen (exec (.activate 0x1001#32 2 0b01#2) (one (some 2) 0xFFF00455#32 [])) =
      some ([some 2], some ([0xA0#32, 0xB0#32, 0xC0#32, 0xD0#32], 0xFFF00455#32),
        some ⟨.invalidBreakpointRequest, []⟩) := by decide
/-- R56: a width no word can carry is still a command, and is rejected. -/
theorem test_activate_width_above_255 :
    seen (step (one none 0x0#32 [.call 0 (.activate 0x1000#32 1000 0b01#2)])) =
      some ([none], some ([0xA0#32, 0xB0#32, 0xC0#32, 0xD0#32], 0x0#32),
        some ⟨.invalidBreakpointRequest, []⟩) := by decide
/-- R61: the reserved code gives no next state. -/
theorem test_reserved_refused : step (one none 0x0#32 [.word 0 0x0#44]) = .refused .reservedCommandCode := rfl
/-- R130: what reset does to the second instance, Armed; R131: as an input it is refused. -/
theorem test_reset_second :
    seen (resetInstance 1 (two (some 0) (some 1) 0x5#32 [])) =
      some ([some 0, none], some ([0xA0#32, 0xB0#32, 0xC0#32, 0xD0#32], 0x5#32), none) := by decide
theorem test_reset_armed_refused : step (two (some 0) (some 1) 0x5#32 [.reset 1]) = .refused .resetDuringLife := rfl
/-- R131: after DEACTIVATE the life goes on, after RELEASE it is over. -/
theorem test_reset_only_after_release :
    core.run 2 (one (some 1) 0x4#32 [.call 0 .deactivate, .reset 0]) = .refused .resetDuringLife ∧
    seen (core.run 2 (one (some 1) 0x4#32 [.call 0 .release, .reset 0])) =
      some ([none], some ([0xA0#32, 0xB0#32, 0xC0#32, 0xD0#32], 0x0#32), some ⟨.ok, [.get, .set]⟩) :=
  ⟨rfl, by decide⟩
/-- R131, R135: a reset in the middle of a life is a breach, and so is a list that does not end it. -/
theorem test_wholeLives :
    Safety.wholeLives 0 false [.reset 0, .word 0 0x00001000045#44, .call 0 .release, .reset 0, .call 0 .release] = true ∧
    Safety.wholeLives 0 false [.word 0 0x00001000045#44, .reset 0, .call 0 .release] = false ∧
    Safety.wholeLives 0 false [.word 0 0x00001000045#44, .call 0 .deactivate] = false := by decide
/-- An instance the machine does not have. -/
theorem test_no_such_instance : step (one none 0x0#32 [.word 1 0x2#44]) = .fault .noSuchInstance := rfl
/-- R116: the S1 watch, a write of its four bytes, a read of them, and a write of the bytes after them. -/
theorem test_watch_settled :
    slotMatch ⟨#v[0x1000#32, 0#32, 0#32, 0#32], 0x000D0001#32⟩ 0 ⟨.write, 0x1000#32, 4⟩ = .yes ∧
    slotMatch ⟨#v[0x1000#32, 0#32, 0#32, 0#32], 0x000D0001#32⟩ 0 ⟨.read, 0x1000#32, 4⟩ = .no ∧
    slotMatch ⟨#v[0x1000#32, 0#32, 0#32, 0#32], 0x000D0001#32⟩ 0 ⟨.write, 0x1004#32, 4⟩ = .no ∧
    slotMatch ⟨#v[0x1000#32, 0#32, 0#32, 0#32], 0x000D0001#32⟩ 0 ⟨.write, 0x1003#32, 1⟩ = .unsettled := by decide

/-! ### Witnesses: for each statement with hypotheses, values that meet them together -/

theorem one_bound (slot : SlotIndex) (dc : Word) (inputs : List Input) :
    bound (one slot dc inputs) (one slot dc inputs).cur ⟨slot, 0⟩ ⟨#v[0xA0#32, 0xB0#32, 0xC0#32, 0xD0#32], dc⟩ :=
  ⟨rfl, rfl⟩

theorem two_bound (slot0 slot1 : SlotIndex) (dc : Word) (inputs : List Input) :
    bound (two slot0 slot1 dc inputs) (two slot0 slot1 dc inputs).cur ⟨slot0, 0⟩
      ⟨#v[0xA0#32, 0xB0#32, 0xC0#32, 0xD0#32], dc⟩ :=
  ⟨rfl, rfl⟩

theorem witness_DecodeOfEncode : (Instr.activate 0xFFFFFFFF#32 255 0b11#2).wellFormed = true := by decide
theorem witness_CommandWordFields : 255 < 256 ∧ (0 : Nat) < 256 := by decide
theorem witness_StepRunsPresentedCommand :
    (one none 0#32 [.word 0 2#44]).inputs = .word 0 2#44 :: [] ∧
    (one none 0#32 [.call 0 .release]).inputs = .call 0 .release :: [] ∧ (one none 0#32 []).inputs = [] := by decide
theorem witness_ReservedCodeRefused :
    (one none 0#32 [.word 0 0xFFFFFFFFFFC#44]).inputs = .word 0 0xFFFFFFFFFFC#44 :: [] ∧
    (0xFFFFFFFFFFC#44).toNat % 4 = 0 := by decide
theorem witness_SetBitsReplacesOneRange : 32 ≤ 32 := by decide
theorem witness_SetBitsLaws :
    (31 < 32 ∧ ¬ (29 ≤ 31 ∧ 31 < 29 + 2)) ∧ (1 ≤ 4 ∧ 28 + 4 ≤ 32) ∧ (0 + 2 ≤ 2 ∨ 2 + 4 ≤ 0) ∧
    (2 + 4 ≤ 0 ∨ 0 + 2 ≤ 2) := by decide
theorem witness_ConditionAndLengthCodes :
    decCond 0b11#2 = some .readOrWrite ∧ legalWidth 4 = some .four := by decide
theorem witness_SlotFieldsDisjoint : (2 : Slot) ≠ 3 := by decide
theorem witness_ClearEnableClosedForm : enOf 0xFFFFFF3F#32 3 = 0#2 := by decide
theorem witness_TransformerLaws :
    (0 : Slot) ≠ 3 ∧ (8 < 32 ∧ ¬ (enOff 3 ≤ 8 ∧ 8 < enOff 3 + 2) ∧ ¬ (clOff 3 ≤ 8 ∧ 8 < clOff 3 + 4)) := by decide
theorem witness_FirstFreeIsLowestFree :
    (slotFree 0x15#32 3 = true ∧ ∀ t : Slot, t < 3 → slotFree 0x15#32 t = false) ∧
    (∀ t : Slot, slotFree 0xAA#32 t = false) ∧ (0xFFFF0405#32).extractLsb' 0 8 = (0x5#32).extractLsb' 0 8 := by decide
theorem witness_ValidIffPreconditions : 3 ≤ 3 ∧ valid 0b100#3 4 0b11#2 = true := by decide
theorem witness_IllegalWidthRejected :
    bound (one none 0#32 []) 0 ⟨none, 0⟩ ⟨#v[0xA0#32, 0xB0#32, 0xC0#32, 0xD0#32], 0#32⟩ ∧
    (3 ≠ 1 ∧ 3 ≠ 2 ∧ 3 ≠ 4) ∧ (0 ≠ 1 ∧ 0 ≠ 2 ∧ 0 ≠ 4) := ⟨one_bound none 0#32 [], by decide⟩
theorem witness_MisalignedAddressRejected :
    bound (one (some 3) 0x40#32 []) 0 ⟨some 3, 0⟩ ⟨#v[0xA0#32, 0xB0#32, 0xC0#32, 0xD0#32], 0x40#32⟩ ∧
    (0x1001#32).getLsbD 0 = true ∧ (0x1002#32).extractLsb' 0 2 ≠ 0#2 ∧
    (0x4#32 ≠ 0#32 ∧ (0x4#32).getLsbD 0 = false ∧ (0x4#32).extractLsb' 0 2 = 0#2) :=
  ⟨one_bound (some 3) 0x40#32 [], by decide⟩
theorem witness_NullAddressOrIllegalConditionRejected :
    bound (one none 0#32 []) 0 ⟨none, 0⟩ ⟨#v[0xA0#32, 0xB0#32, 0xC0#32, 0xD0#32], 0#32⟩ ∧
    (0#32 = 0#Config.aw ∨ (0b01#2 ≠ 0b01#2 ∧ 0b01#2 ≠ 0b11#2)) ∧ (0x4#32 = 0#Config.aw ∨ (0b10#2 ≠ 0b01#2 ∧ 0b10#2 ≠ 0b11#2)) :=
  ⟨one_bound none 0#32 [], by decide⟩
/-- From Unarmed to the last slot, and from Armed on slot 3 down to slot 1. -/
theorem witness_ActivateArmsFirstFreeSlot :
    (bound (one none 0x15#32 []) 0 ⟨none, 0⟩ ⟨#v[0xA0#32, 0xB0#32, 0xC0#32, 0xD0#32], 0x15#32⟩ ∧
      valid 0xFFFFFFFC#32 4 0b11#2 = true ∧ firstFree (releasedImage none 0x15#32) = some 3) ∧
    (bound (one (some 3) 0x51#32 []) 0 ⟨some 3, 0⟩ ⟨#v[0xA0#32, 0xB0#32, 0xC0#32, 0xD0#32], 0x51#32⟩ ∧
      valid 0x1#32 1 0b01#2 = true ∧ firstFree (releasedImage (some 3) 0x51#32) = some 1) :=
  ⟨⟨one_bound none 0x15#32 [], by decide⟩, ⟨one_bound (some 3) 0x51#32 [], by decide⟩⟩
theorem witness_ExhaustionFailsOnlyFromUnarmed :
    bound (one none 0x6D#32 []) 0 ⟨none, 0⟩ ⟨#v[0xA0#32, 0xB0#32, 0xC0#32, 0xD0#32], 0x6D#32⟩ ∧
    bound (one (some 0) 0x6D#32 []) 0 ⟨some 0, 0⟩ ⟨#v[0xA0#32, 0xB0#32, 0xC0#32, 0xD0#32], 0x6D#32⟩ ∧
    valid 0x1000#32 4 0b01#2 = true ∧ (∀ u, slotFree 0x6D#32 u = false) :=
  ⟨one_bound none 0x6D#32 [], one_bound (some 0) 0x6D#32 [], by decide⟩
theorem witness_ErrorIsPreciseAndOnlyFromActivate :
    exec (.activate 0x1000#32 1 0b01#2) (one none 0x55#32 []) =
      .next { one none 0x55#32 [] with
        log := .command 0 (.activate 0x1000#32 1 0b01#2) .invalidBreakpointRequest [.get] :: [] } ∧
    exec (.activate 0x1000#32 3 0b01#2) (one (some 2) 0x55#32 []) =
      .next { one (some 2) 0x55#32 [] with
        log := .command 0 (.activate 0x1000#32 3 0b01#2) .invalidBreakpointRequest [] :: [] } := ⟨rfl, rfl⟩
/-- Armed on slot 2, for both re-arm statements: with the slots below occupied, and with slot 0 free. -/
theorem witness_RearmKeepsOrLowersSlot :
    bound (one (some 2) 0x15#32 []) 0 ⟨some 2, 0⟩ ⟨#v[0xA0#32, 0xB0#32, 0xC0#32, 0xD0#32], 0x15#32⟩ ∧
    bound (one (some 2) 0x14#32 []) 0 ⟨some 2, 0⟩ ⟨#v[0xA0#32, 0xB0#32, 0xC0#32, 0xD0#32], 0x14#32⟩ ∧
    valid 0x4002#32 2 0b11#2 = true ∧ (∀ u : Slot, u < 2 → slotFree 0x15#32 u = false) ∧ slotFree 0x14#32 0 = true :=
  ⟨one_bound (some 2) 0x15#32 [], one_bound (some 2) 0x14#32 [], by decide⟩
theorem witness_RearmEqualsDeactivateThenActivate :
    bound (one (some 2) 0x14#32 []) 0 ⟨some 2, 0⟩ ⟨#v[0xA0#32, 0xB0#32, 0xC0#32, 0xD0#32], 0x14#32⟩ ∧
    valid 0x4002#32 2 0b11#2 = true := ⟨one_bound (some 2) 0x14#32 [], by decide⟩
/-- Unarmed and Armed, for the statements about DEACTIVATE, RELEASE, the state machine and what all commands do. -/
theorem witness_DeactivateClearsOnlyEnable :
    bound (one none 0xFF#32 []) 0 ⟨none, 0⟩ ⟨#v[0xA0#32, 0xB0#32, 0xC0#32, 0xD0#32], 0xFF#32⟩ ∧
    bound (one (some 3) 0xFF#32 []) 0 ⟨some 3, 0⟩ ⟨#v[0xA0#32, 0xB0#32, 0xC0#32, 0xD0#32], 0xFF#32⟩ :=
  ⟨one_bound none 0xFF#32 [], one_bound (some 3) 0xFF#32 []⟩
theorem witness_ReleaseDisarms :
    bound (one (some 0) 0x3#32 []) 0 ⟨some 0, 0⟩ ⟨#v[0xA0#32, 0xB0#32, 0xC0#32, 0xD0#32], 0x3#32⟩ :=
  one_bound (some 0) 0x3#32 []
theorem witness_DeactivateIsIdempotent :
    bound (one (some 1) 0x4#32 []) 0 ⟨some 1, 0⟩ ⟨#v[0xA0#32, 0xB0#32, 0xC0#32, 0xD0#32], 0x4#32⟩ :=
  one_bound (some 1) 0x4#32 []
theorem witness_ActivateThenDeactivateRoundTrip :
    bound (one none 0xF0F00445#32 []) 0 ⟨none, 0⟩ ⟨#v[0xA0#32, 0xB0#32, 0xC0#32, 0xD0#32], 0xF0F00445#32⟩ ∧
    valid 0x7FFFFFFC#32 4 0b11#2 = true ∧ firstFree 0xF0F00445#32 = some 2 :=
  ⟨one_bound none 0xF0F00445#32 [], by decide⟩
theorem witness_LeftoversStayUntilReused :
    bound (one none 0x0#32 []) 0 ⟨none, 0⟩ ⟨#v[0xA0#32, 0xB0#32, 0xC0#32, 0xD0#32], 0x0#32⟩ ∧
    bound (one (some 0) 0xFFFF0003#32 []) 0 ⟨some 0, 0⟩ ⟨#v[0xA0#32, 0xB0#32, 0xC0#32, 0xD0#32], 0xFFFF0003#32⟩ ∧
    valid 0x2000#32 2 0b01#2 = true ∧ firstFree (releasedImage none 0x0#32) = some 0 ∧
    firstFree (releasedImage (some 0) 0xFFFF0003#32) = some 0 :=
  ⟨one_bound none 0x0#32 [], one_bound (some 0) 0xFFFF0003#32 [], by decide⟩
theorem witness_StateMachineTable :
    bound (one none 0x0#32 []) 0 ⟨none, 0⟩ ⟨#v[0xA0#32, 0xB0#32, 0xC0#32, 0xD0#32], 0x0#32⟩ ∧
    bound (one none 0x55#32 []) 0 ⟨none, 0⟩ ⟨#v[0xA0#32, 0xB0#32, 0xC0#32, 0xD0#32], 0x55#32⟩ ∧
    bound (one (some 3) 0x40#32 []) 0 ⟨some 3, 0⟩ ⟨#v[0xA0#32, 0xB0#32, 0xC0#32, 0xD0#32], 0x40#32⟩ ∧
    valid 0x1000#32 4 0b01#2 = true ∧ valid 0x1000#32 3 0b01#2 = false ∧ firstFree 0x0#32 = some 0 ∧
    firstFree 0x55#32 = none :=
  ⟨one_bound none 0x0#32 [], one_bound none 0x55#32 [], one_bound (some 3) 0x40#32 [], by decide⟩
theorem witness_EveryCommandCompletes :
    bound (one none 0x55#32 []) 0 ⟨none, 0⟩ ⟨#v[0xA0#32, 0xB0#32, 0xC0#32, 0xD0#32], 0x55#32⟩ ∧
    (Instr.activate 0x0#32 0 0b00#2).isCommand = true ∧ (Instr.release : Instr).isCommand = true :=
  ⟨one_bound none 0x55#32 [], by decide⟩
theorem witness_AddressedInputsNeverStop :
    Safety.allBound (one none 0x55#32 [.word 0 0x1#44]) ∧
    ∀ inp rest, (one none 0x55#32 [.word 0 0x1#44]).inputs = inp :: rest →
      Safety.addressed (one none 0x55#32 [.word 0 0x1#44]) inp := by
  refine ⟨by simp [Safety.allBound, one], ?_⟩
  rintro inp rest h
  cases h
  exact ⟨by decide, by decide⟩
theorem witness_AccessorEventsPerCommand :
    valid 0x0#32 1 0b01#2 = false ∧
    (valid 0x1000#32 4 0b01#2 = true ∧ firstFree (releasedImage none 0x55#32) = none ∧
      firstFree (releasedImage (some 3) 0x55#32) = some 3) := by decide
theorem witness_AddressRegisterWrittenOnlyByActivate :
    ∃ t, exec (.activate 0x1000#32 4 0b01#2) (one none 0x0#32 []) = .next t ∧
      ∃ k', t.ctxs[0]? = some k' ∧ daOf k' 0 ≠ 0xA0#32 := ⟨_, rfl, _, rfl, by decide⟩
theorem witness_AddressRegistersNeverInfluence :
    (∃ a w c, (activate 0x1000#32 4 0b01#2 : SlotIndex → Bus 32 → CommandOut 32) = activate a w c) ∧
    ((release : SlotIndex → Bus 32 → CommandOut 32) = deactivate ∨
      (release : SlotIndex → Bus 32 → CommandOut 32) = release) ∧ slotFree 0xFFFF00FC#32 0 = true :=
  ⟨⟨_, _, _, rfl⟩, .inr rfl, by decide⟩
theorem witness_OtherBitsNeverInfluence :
    (∀ u, enOf 0xFFFFFF05#32 u = enOf 0x00000005#32 u) ∧
    (∃ t, exec .deactivate (one (some 1) 0xFFFFFFFF#32 []) = .next t ∧ readSlot t 0 ≠ some (some 0)) ∧
    (some 1 : SlotIndex) ≠ some 0 ∧
    ((release : SlotIndex → Bus 32 → CommandOut 32) = deactivate ∨
      (release : SlotIndex → Bus 32 → CommandOut 32) = release) :=
  ⟨by decide, ⟨_, rfl, by decide⟩, by decide, .inr rfl⟩
/-- A step that arms and a step that disarms. -/
theorem witness_SlotWrittenOnlyByOwnCommands :
    (∃ t, step (one none 0x0#32 [.word 0 0x00001000045#44]) = .next t ∧ readSlot t 0 = some (some 0)) ∧
    (∃ t, step (one (some 2) 0x10#32 [.word 0 2#44]) = .next t ∧ readSlot t 0 = some none) :=
  ⟨⟨_, rfl, by decide⟩, ⟨_, rfl, by decide⟩⟩
theorem witness_CommandDependsOnlyOnSlotAndContext :
    bound (one (some 1) 0x5#32 []) 0 ⟨some 1, 0⟩ ⟨#v[0xA0#32, 0xB0#32, 0xC0#32, 0xD0#32], 0x5#32⟩ ∧
    bound (two (some 1) (some 0) 0x5#32 [.reset 1]) 0 ⟨some 1, 0⟩ ⟨#v[0xA0#32, 0xB0#32, 0xC0#32, 0xD0#32], 0x5#32⟩ ∧
    (Instr.deactivate : Instr).isCommand = true :=
  ⟨one_bound (some 1) 0x5#32 [], two_bound (some 1) (some 0) 0x5#32 [.reset 1], by decide⟩
theorem witness_OtherInstancesAndContextsUntouched :
    (∃ t, exec .deactivate (two (some 1) (some 0) 0x5#32 []) = .next t) ∧
    bound (two (some 1) (some 0) 0x5#32 []) 0 ⟨some 1, 0⟩ ⟨#v[0xA0#32, 0xB0#32, 0xC0#32, 0xD0#32], 0x5#32⟩ :=
  ⟨⟨_, rfl⟩, two_bound (some 1) (some 0) 0x5#32 []⟩

/-- Two instances on slots 0 and 1 of one context meet the ownership invariant. -/
theorem two_ownership (inputs : List Input) : Safety.ownership (two (some 0) (some 1) 0x5#32 inputs) := by
  constructor
  · intro x hx c hc t ht
    simp only [two, List.mem_cons, List.not_mem_nil, or_false] at hx
    rcases hx with rfl | rfl <;> cases hc <;> cases ht <;> decide
  · intro i j x y hij hi hj _ t ht hs
    match i, j with
    | 0, 0 => exact hij rfl
    | 1, 1 => exact hij rfl
    | 0, 1 => cases hi; cases hj; cases ht; cases hs
    | 1, 0 => cases hi; cases hj; cases ht; cases hs
    | n + 2, _ => simp [two] at hi
    | _, n + 2 => simp [two] at hj

/-- An input for each clause of `coordinated` that can fail: a foreign write that keeps both held slots occupied, and
the reset of an Unarmed instance. -/
theorem witness_OwnershipKeptByEveryStep :
    Safety.ownership (two (some 0) (some 1) 0x5#32 [.foreignDc 0 0xAF#32]) ∧
    Safety.coordinated (two (some 0) (some 1) 0x5#32 [.foreignDc 0 0xAF#32]) (.foreignDc 0 0xAF#32) ∧
    (∃ t, step (two (some 0) (some 1) 0x5#32 [.foreignDc 0 0xAF#32]) = .next t) ∧
    Safety.coordinated (two none (some 1) 0x4#32 [.reset 0]) (.reset 0) := by
  refine ⟨two_ownership _, ?_, ⟨_, rfl⟩, rfl, rfl⟩
  intro x hx _ t ht
  simp only [two, List.mem_cons, List.not_mem_nil, or_false] at hx
  rcases hx with rfl | rfl <;> cases ht <;> decide
theorem witness_BindingsKeptByEveryStep :
    Safety.allBound (two none none 0x0#32 [.reset 1]) ∧ ∃ t, step (two none none 0x0#32 [.reset 1]) = .next t :=
  ⟨by simp [Safety.allBound, two], ⟨_, rfl⟩⟩
theorem witness_AtMostFourArmedPerContext : Safety.ownership (two (some 0) (some 1) 0x5#32 []) := two_ownership []
/-- A life of three inputs, and a list whose last input is RELEASE. -/
theorem witness_LifetimeEndingInReleaseEndsUnarmed :
    (let s := one none 0x0#32 [.reset 0, .word 0 0x00001000045#44, .word 0 3#44]
     s.insts[0]? = some ⟨none, 0⟩ ∧ Safety.wholeLives 0 (inLife 0 s.log) s.inputs = true ∧
     ∃ t, core.run 3 s = .next t ∧ t.inputs = []) ∧
    (∃ r : State, core.run 1 (one none 0x0#32 ([.word 0 0x00001000045#44] ++ [.word 0 3#44])) = .next r ∧
      bound r 0 ⟨some 0, 0⟩ ⟨#v[0x1000#32, 0xB0#32, 0xC0#32, 0xD0#32], 0x000D0001#32⟩) ∧
    Safety.commandFor 0 (.word 0 3#44 : Input) = some .release :=
  ⟨⟨rfl, by decide, ⟨_, rfl, rfl⟩⟩, ⟨_, rfl, by decide, by decide⟩, by decide⟩
/-- Armed for the reset itself; for the input, the start of a life, and one that RELEASE ended. -/
theorem witness_ResetUnarmsAndNothingElse :
    (two (some 0) (some 1) 0x5#32 []).insts[1]? = some ⟨some 1, 0⟩ ∧
    (two (some 0) none 0x5#32 [.reset 1]).inputs = .reset 1 :: [] ∧
    (two (some 0) none 0x5#32 [.reset 1]).insts[1]? = some ⟨none, 0⟩ ∧
    inLife 1 (two (some 0) none 0x5#32 [.reset 1]).log = false ∧
    inLife 1 ([.command 1 .release .ok [], .command 1 .deactivate .ok []] : List Obs) = false := by decide
theorem witness_ResetOfArmedLeavesSlotOccupied :
    (bound (two (some 0) (some 1) 0x5#32 []) 0 ⟨some 0, 0⟩ ⟨#v[0xA0#32, 0xB0#32, 0xC0#32, 0xD0#32], 0x5#32⟩ ∧
      Safety.ownership (two (some 0) (some 1) 0x5#32 [])) ∧
    ((two (some 0) (some 1) 0x5#32 [.reset 0]).inputs = .reset 0 :: [] ∧ (some 0 : SlotIndex) ≠ none) ∧
    inLife 0 ([.command 0 .deactivate .ok []] : List Obs) = true :=
  ⟨⟨two_bound (some 0) (some 1) 0x5#32 [], two_ownership _⟩, by decide, by decide⟩
/-- A construction that succeeds, one of an invalid request, and a valid one with no free slot. -/
theorem witness_ConstructActivatesOrLeavesUnarmed :
    bound (one none 0x1#32 (construct 0 0x1000#32 4 0b01#2)) 0 ⟨none, 0⟩
      ⟨#v[0xA0#32, 0xB0#32, 0xC0#32, 0xD0#32], 0x1#32⟩ ∧
    inLife 0 (one none 0x1#32 (construct 0 0x1000#32 4 0b01#2)).log = false ∧
    valid 0x1000#32 4 0b01#2 = true ∧ firstFree 0x1#32 = some 1 ∧ valid 0x1000#32 3 0b01#2 = false ∧
    bound (one none 0x55#32 (construct 0 0x1000#32 4 0b01#2)) 0 ⟨none, 0⟩
      ⟨#v[0xA0#32, 0xB0#32, 0xC0#32, 0xD0#32], 0x55#32⟩ ∧ firstFree 0x55#32 = none :=
  ⟨one_bound _ _ _, rfl, by decide, by decide, by decide, one_bound _ _ _, by decide⟩
theorem witness_ForeignWriteChangesOneRegister :
    (one none 0x1#32 [.foreignDc 0 0x400#32]).ctxs[0]? = some ⟨#v[0xA0#32, 0xB0#32, 0xC0#32, 0xD0#32], 0x1#32⟩ ∧
    (one none 0x1#32 [.foreignDa 0 3 0x7#32]).inputs = .foreignDa 0 3 0x7#32 :: [] := by decide
/-- P6 after step 3: two instances name slot 0. -/
theorem witness_StaleSlotDisarmsOtherInstance :
    bound (two (some 0) (some 0) 0x00070001#32 []) 0 ⟨some 0, 0⟩
      ⟨#v[0xA0#32, 0xB0#32, 0xC0#32, 0xD0#32], 0x00070001#32⟩ ∧
    (two (some 0) (some 0) 0x00070001#32 []).insts[1]? = some ⟨some 0, 0⟩ ∧ (1 : Nat) ≠ 0 :=
  ⟨two_bound _ _ _ _, by decide⟩
theorem witness_ArmedWatchTraps :
    bound (one none 0x0#32 []) 0 ⟨none, 0⟩ ⟨#v[0xA0#32, 0xB0#32, 0xC0#32, 0xD0#32], 0x0#32⟩ ∧
    (valid 0x1000#32 4 0b01#2 = true ∧ (AccessKind.write = .write ∨ (AccessKind.write = .read ∧ 0b01#2 = 0b11#2))) ∧
    (valid 0xFFFFFFFE#32 2 0b11#2 = true ∧ (AccessKind.read = .write ∨ (AccessKind.read = .read ∧ 0b11#2 = 0b11#2))) ∧
    firstFree (releasedImage none 0x0#32) = some 0 := ⟨one_bound none 0x0#32 [], by decide⟩
theorem witness_DisarmedSlotNeverTraps :
    bound (one (some 2) 0x10#32 []) 0 ⟨some 2, 0⟩ ⟨#v[0xA0#32, 0xB0#32, 0xC0#32, 0xD0#32], 0x10#32⟩ ∧
    (one none 0xFFFFFF00#32 [.access 0 ⟨.write, 0xA0#32, 4⟩]).ctxs[0]? =
      some ⟨#v[0xA0#32, 0xB0#32, 0xC0#32, 0xD0#32], 0xFFFFFF00#32⟩ ∧ (∀ u, slotFree 0xFFFFFF00#32 u = true) :=
  ⟨one_bound (some 2) 0x10#32 [], by decide⟩
/-- A write watch read, an access watch fetched, and an access that ends where the watched bytes begin. -/
theorem witness_SettledPointsOfWatchMatch :
    (condOf 0x000D0001#32 0 = 0b01#2 ∧ AccessKind.read ≠ .write) ∧ condOf 0x000F0001#32 0 = 0b11#2 ∧
    (condOf 0x000D0001#32 0 = encCond .write ∧ lenOf 0x000D0001#32 0 = encLen .four ∧
      (0xA0#32).toNat % widthBytes .four = 0 ∧ (0x9F#32).toNat + 1 ≤ (0xA0#32).toNat) := by decide

/-- One instance at the start of a life that its list completes: a step that begins it. -/
theorem witness_LifetimesKeptByEveryStep :
    Safety.lifetimes (one none 0x0#32 [.word 0 0x00001000045#44, .word 0 3#44]) ∧
    ∃ t, step (one none 0x0#32 [.word 0 0x00001000045#44, .word 0 3#44]) = .next t ∧ inLife 0 t.log = true := by
  refine ⟨⟨?_, ?_⟩, ⟨_, rfl, by decide⟩⟩
  · intro n x hx hs
    match n with
    | 0 => cases hx; exact absurd rfl hs
    | n + 1 => simp [one] at hx
  · intro n
    match n with
    | 0 => decide
    | n + 1 => rfl
/-- At the least width the spec allows: the one valid 4-byte request there is. -/
theorem witness_EveryAddressWidth :
    (let s : State 3 := { (State.resetAt : State 3) with inputs := [.call 4 (.activate 4#3 4 0b01#2)] }
     s.inputs = .call 4 (.activate 4#3 4 0b01#2) :: [] ∧ bound s 4 ⟨none, 0⟩ resetContext ∧
     ∃ t, stepAt s = .next t ∧ readSlot t 4 = some (some 0)) ∧
    (∃ w : CmdWord 3, decode w = .activate 4#3 4 0b01#2) :=
  ⟨⟨rfl, ⟨rfl, rfl⟩, ⟨_, rfl, by decide⟩⟩, ⟨0x4045#15, by decide⟩⟩

end Sys2Proof.Tests
end

section
/-! SUPPORT. What a command leaves of the control word and of the address registers, and the statements of
10_state.md that follow: R10, R13 and R21. -/

namespace Sys2Proof.Machine

/-! ### The image a command works on -/

/-- Giving up the held slot touches the enable field of no other slot. -/
theorem enOf_releasedImage_ne {slot : SlotIndex} {u : Slot} (h : slot ≠ some u) (dc : Word) :
    enOf (releasedImage slot dc) u = enOf dc u := by
  cases slot with
  | none => rfl
  | some t => exact enOf_clearEnable_ne dc fun e => h (congrArg some e.symm)

@[simp] theorem clOf_releasedImage (slot : SlotIndex) (dc : Word) (u : Slot) :
    clOf (releasedImage slot dc) u = clOf dc u := by
  cases slot <;> simp

/-- The enable fields left after giving up the held slot depend on the enable fields alone. -/
theorem enOf_releasedImage_congr {dc dc' : Word} (h : ∀ u, enOf dc u = enOf dc' u) (slot : SlotIndex) (u : Slot) :
    enOf (releasedImage slot dc) u = enOf (releasedImage slot dc') u := by
  by_cases hu : slot = some u
  · subst hu; simp
  · rw [enOf_releasedImage_ne hu, enOf_releasedImage_ne hu, h]

/-- The allocator reads nothing but the enable fields (R80, R81). -/
theorem firstFree_congr {dc dc' : Word} (h : ∀ u, enOf dc u = enOf dc' u) : firstFree dc = firstFree dc' := by
  have hfree : slotFree dc = slotFree dc' := funext fun u => by rw [slotFree, slotFree, h u]
  unfold firstFree
  rw [hfree]

/-! ### Bits 15:8, which lie in no field -/

@[simp] theorem extract_clearEnable_unused (dc : Word) (s : Slot) :
    (clearEnable dc s).extractLsb' 8 8 = dc.extractLsb' 8 8 := by
  obtain ⟨hen, -, -⟩ := slot_range s
  exact extract_setBits_disjoint _ _ (by decide) (.inl hen)

@[simp] theorem extract_packSlot_unused (dc : Word) (s : Slot) (w : Width) (c : Condition) :
    (packSlot dc s w c).extractLsb' 8 8 = dc.extractLsb' 8 8 := by
  obtain ⟨hen, hcl, -⟩ := slot_range s
  rw [packSlot, extract_setBits_disjoint _ _ (by decide) (.inl hen),
    extract_setBits_disjoint _ _ (by decide) (.inr hcl)]

@[simp] theorem extract_releasedImage_unused (slot : SlotIndex) (dc : Word) :
    (releasedImage slot dc).extractLsb' 8 8 = dc.extractLsb' 8 8 := by
  cases slot <;> simp

/-! ### Transformers that keep a bit or fix it -/

/-- Each bit of the image either stays whatever the image, or comes out the same whatever the image. -/
def KeepsOrFixesBits (F : Word → Word) : Prop :=
  ∀ j, j < CW → (∀ dc, (F dc).getLsbD j = dc.getLsbD j) ∨ (∀ dc dc', (F dc).getLsbD j = (F dc').getLsbD j)

theorem KeepsOrFixesBits.id : KeepsOrFixesBits fun dc => dc := fun _ _ => .inl fun _ => rfl

theorem KeepsOrFixesBits.comp {F G : Word → Word} (hF : KeepsOrFixesBits F) (hG : KeepsOrFixesBits G) :
    KeepsOrFixesBits fun dc => F (G dc) := by
  intro j hj
  rcases hF j hj with hkeep | hfix
  · simpa only [hkeep] using hG j hj
  · exact .inr fun dc dc' => hfix (G dc) (G dc')

/-- The merge keeps the bits outside its range and fixes those inside it. -/
theorem KeepsOrFixesBits.setBits (pos n v : Nat) : KeepsOrFixesBits fun dc => setBits dc pos n v := by
  intro j hj
  by_cases hin : pos ≤ j ∧ j < pos + n
  · exact .inr fun dc dc' => by simp only [getLsbD_setBits _ _ _ _ _ hj, if_pos hin]
  · exact .inl fun dc => by rw [getLsbD_setBits _ _ _ _ _ hj, if_neg hin]

theorem KeepsOrFixesBits.packSlot (s : Slot) (w : Width) (c : Condition) :
    KeepsOrFixesBits fun dc => packSlot dc s w c :=
  (KeepsOrFixesBits.setBits (enOff s) enW enSet).comp (.setBits (clOff s) clW (encCl w c).toNat)

theorem KeepsOrFixesBits.releasedImage : ∀ slot : SlotIndex, KeepsOrFixesBits (releasedImage slot)
  | none => .id
  | some t => .setBits (enOff t) enW enClear

/-- Of two images under one such transformer, every bit stays in both or comes out the same in both. -/
theorem KeepsOrFixesBits.pair {F : Word → Word} (hF : KeepsOrFixesBits F) (dc dc' : Word) {j : Nat} (hj : j < CW) :
    ((F dc).getLsbD j = dc.getLsbD j ∧ (F dc').getLsbD j = dc'.getLsbD j) ∨
      (F dc).getLsbD j = (F dc').getLsbD j :=
  (hF j hj).imp (fun h => ⟨h dc, h dc'⟩) (fun h => h dc dc')

/-! ### What a command leaves behind -/

section outputs
variable {aw : Nat} (slot : SlotIndex) (b : Bus aw)

/-- DEACTIVATE leaves the image with the held slot given up. -/
theorem dc_deactivate : (deactivate slot b).bus.ctx.dc = releasedImage slot b.ctx.dc := by
  cases slot <;> rfl

/-- DEACTIVATE writes no address register. -/
theorem da_deactivate : (deactivate slot b).bus.ctx.da = b.ctx.da := by
  cases slot <;> rfl

/-- The three control words a command can leave. -/
theorem dc_of_command {i : Instr aw} {f : SlotIndex → Bus aw → CommandOut aw} (hf : commandOf i = some f) :
    (f slot b).bus.ctx.dc = b.ctx.dc ∨
    (f slot b).bus.ctx.dc = releasedImage slot b.ctx.dc ∨
    ∃ s w c, (f slot b).slot = some s ∧ (f slot b).bus.ctx.dc = packSlot (releasedImage slot b.ctx.dc) s w c := by
  cases i with
  | activate a w c =>
    cases hf
    rcases activate_cases a w c slot b with ⟨-, e⟩ | ⟨r, -, -, e⟩ | ⟨r, s, -, -, e⟩
    · exact .inl (by rw [e]; rfl)
    · exact .inl (by rw [e]; rfl)
    · exact .inr (.inr ⟨s, r.width, r.cond, by rw [e]; rfl, by rw [e]; rfl⟩)
  | deactivate => cases hf; exact .inr (.inl (dc_deactivate slot b))
  | release => cases hf; exact .inr (.inl (dc_deactivate slot b))
  | reservedOp00 => cases hf

/-- No command changes bits 15:8 of the control word. -/
theorem command_keeps_unused {i : Instr aw} {f : SlotIndex → Bus aw → CommandOut aw} (hf : commandOf i = some f) :
    (f slot b).bus.ctx.dc.extractLsb' 8 8 = b.ctx.dc.extractLsb' 8 8 := by
  rcases dc_of_command slot b hf with e | e | ⟨s, w, c, -, e⟩ <;> simp [e]

/-- No command changes the fields of a slot it neither gives up nor takes. -/
theorem command_keeps_other_slot {i : Instr aw} {f : SlotIndex → Bus aw → CommandOut aw} (hf : commandOf i = some f)
    {u : Slot} (hold : slot ≠ some u) (hnew : (f slot b).slot ≠ some u) :
    enOf (f slot b).bus.ctx.dc u = enOf b.ctx.dc u ∧ clOf (f slot b).bus.ctx.dc u = clOf b.ctx.dc u := by
  rcases dc_of_command slot b hf with e | e | ⟨s, w, c, hs, e⟩
  · simp [e]
  · simp [e, enOf_releasedImage_ne hold]
  · have hu : u ≠ s := fun h => hnew (h ▸ hs)
    simp [e, enOf_packSlot_ne _ w c hu, clOf_packSlot_ne _ w c hu, enOf_releasedImage_ne hold]

/-- ACTIVATE changes an address register only for a legal request, only of the slot it takes, and writes the
request's address there. -/
theorem activate_of_da_changed (a : BitVec aw) (w : Nat) (c : CondCode) {u : Slot}
    (h : daOf (activate a w c slot b).bus.ctx u ≠ daOf b.ctx u) :
    valid a w c = true ∧ (activate a w c slot b).slot = some u ∧ daOf (activate a w c slot b).bus.ctx u = a := by
  rcases activate_cases a w c slot b with ⟨-, e⟩ | ⟨r, -, -, e⟩ | ⟨r, s, hr, -, e⟩
  · rw [e] at h; exact absurd rfl h
  · rw [e] at h; exact absurd rfl h
  · rw [e] at h ⊢
    have hu : u = s := by
      by_contra hne
      exact h (daOf_writeDa_ne b.ctx s r.addr hne)
    subst hu
    obtain ⟨haddr, -⟩ := request_eq_some.mp hr
    exact ⟨valid_eq_true.mpr ⟨r, hr⟩, rfl, (daOf_writeDa_same b.ctx u r.addr).trans haddr⟩

end outputs

/-- Two images with the same enable fields lead ACTIVATE to the same outputs, but for the bits of the control word
that stay in both. -/
theorem activate_congr_enOf {aw : Nat} (slot : SlotIndex) (da : Vector (BitVec aw) NSLOT) {dc dc' : Word}
    (a : BitVec aw) (w : Nat) (c : CondCode) (h : ∀ u, enOf dc u = enOf dc' u) :
    ∃ (o : SlotIndex) (res : Result) (ev : List CtxEvent) (da' : Vector (BitVec aw) NSLOT) (F : Word → Word),
      KeepsOrFixesBits F ∧
      activate a w c slot ⟨⟨da, dc⟩, []⟩ = ⟨o, ⟨⟨da', F dc⟩, ev⟩, res⟩ ∧
      activate a w c slot ⟨⟨da, dc'⟩, []⟩ = ⟨o, ⟨⟨da', F dc'⟩, ev⟩, res⟩ := by
  have hff : firstFree (releasedImage slot dc') = firstFree (releasedImage slot dc) :=
    (firstFree_congr (enOf_releasedImage_congr h slot)).symm
  rcases activate_cases a w c slot ⟨⟨da, dc⟩, []⟩ with ⟨hr, e⟩ | ⟨r, hr, hf, e⟩ | ⟨r, s, hr, hf, e⟩
  · exact ⟨_, _, _, _, _, .id, e, activate_invalid _ _ _ _ _ hr⟩
  · exact ⟨_, _, _, _, _, .id, e, activate_full _ _ _ _ _ hr (hff.trans hf)⟩
  · exact ⟨_, _, _, _, _, (KeepsOrFixesBits.packSlot s r.width r.cond).comp (.releasedImage slot), e,
      activate_ok _ _ _ _ _ hr (hff.trans hf)⟩

/-- Every instruction but the reserved code runs a command function. -/
theorem exists_commandOf {aw : Nat} {i : Instr aw} (h : i.isCommand = true) : ∃ f, commandOf i = some f := by
  cases i with
  | activate a w c => exact ⟨_, rfl⟩
  | deactivate => exact ⟨_, rfl⟩
  | release => exact ⟨_, rfl⟩
  | reservedOp00 => cases h

/-- A next state of `exec` on a known `SLOT` and context is what the command function commits on these. -/
theorem exec_next_of_bound {i : Instr} {s t : State} {x : Instance} {k : Ctx} (h : exec i s = .next t)
    (hb : bound s s.cur x k) : ∃ f, commandOf i = some f ∧ t = commit s x.ctx i (f x.slot ⟨k, []⟩) := by
  obtain ⟨f, x', c, hf, hb', rfl⟩ := exec_next h
  obtain rfl : x' = x := Option.some.inj (hb'.1.symm.trans hb.1)
  obtain rfl : c = k := Option.some.inj (hb'.2.symm.trans hb.2)
  exact ⟨f, hf, rfl⟩

/-! ### The statements -/

/-- Settles O34: of the three commands only a successful ACTIVATE writes the address registers, and `commit` writes
no context but the bound one. -/
theorem addressRegisterWrittenOnlyByActivate : Obligations.AddressRegisterWrittenOnlyByActivate := by
  intro s t i n k k' u hexec hk hk' hne
  obtain ⟨f, x, c, hf, hb, rfl⟩ := exec_next hexec
  have hn : x.ctx = n := by
    by_contra hn
    rw [commit_ctx_ne i s x.ctx _ (Ne.symm hn), hk] at hk'
    cases hk'; exact hne rfl
  subst hn
  obtain rfl : c = k := Option.some.inj (hb.2.symm.trans hk)
  obtain rfl : (f x.slot ⟨c, []⟩).bus.ctx = k' := Option.some.inj ((commit_ctx_self i s _ hb).symm.trans hk')
  cases i with
  | activate a w co =>
    cases hf
    obtain ⟨hv, hslot, hda⟩ := activate_of_da_changed x.slot ⟨c, []⟩ a w co hne
    exact ⟨a, w, co, x, rfl, hv, hb.1, rfl, by rw [readSlot_commit _ s _ _ hb, hslot], hda⟩
  | deactivate => cases hf; exact absurd (congrArg (·[u]) (da_deactivate x.slot ⟨c, []⟩)) hne
  | release => cases hf; exact absurd (congrArg (·[u]) (da_deactivate x.slot ⟨c, []⟩)) hne
  | reservedOp00 => cases hf

/-- Settles O36: the image goes through transformers that keep or fix each bit, and which ones they are depends on
`SLOT`, the operands and the enable fields alone. -/
theorem otherBitsNeverInfluence : Obligations.OtherBitsNeverInfluence := by
  refine ⟨?_, ?_, ?_⟩
  · intro aw slot da dc dc' a w c h
    obtain ⟨o, res, ev, da', F, hF, e, e'⟩ := activate_congr_enOf slot da a w c h
    rw [e, e']
    exact ⟨rfl, rfl, rfl, rfl, fun j hj => hF.pair dc dc' hj⟩
  · intro aw slot da dc dc' f hf
    have hrel : (release : SlotIndex → Bus aw → CommandOut aw) = deactivate := rfl
    obtain rfl : f = deactivate := hf.elim id (·.trans hrel)
    refine ⟨by cases slot <;> rfl, by cases slot <;> rfl, by cases slot <;> rfl, fun j hj => ?_⟩
    rw [dc_deactivate, dc_deactivate]
    exact (KeepsOrFixesBits.releasedImage slot).pair dc dc' hj
  · intro s t i x k k' hexec hb hk'
    obtain ⟨f, hf, rfl⟩ := exec_next_of_bound hexec hb
    obtain rfl : (f x.slot ⟨k, []⟩).bus.ctx = k' := Option.some.inj ((commit_ctx_self i s _ hb).symm.trans hk')
    refine ⟨command_keeps_unused x.slot ⟨k, []⟩ hf, fun u hold hnew => ?_⟩
    rw [readSlot_commit _ s _ _ hb] at hnew
    exact command_keeps_other_slot x.slot ⟨k, []⟩ hf hold fun h => hnew (congrArg some h)

/-- Settles O38: the output of the command function on `SLOT` and the bound context is what both states commit. -/
theorem commandDependsOnlyOnSlotAndContext : Obligations.CommandDependsOnlyOnSlotAndContext := by
  intro s s2 i x x2 k hb hb2 hslot hi
  obtain ⟨f, hf⟩ := exists_commandOf hi
  have hexec2 := exec_bound hf hb2
  rw [← hslot] at hexec2
  exact ⟨_, _, _, _, _, _, exec_bound hf hb, hexec2,
    readSlot_commit i s x.ctx _ hb, readSlot_commit i s2 x2.ctx _ hb2,
    commit_ctx_self i s _ hb, commit_ctx_self i s2 _ hb2, rfl, rfl⟩

end Sys2Proof.Machine
end

section
/-! SUPPORT. What the decoder and a step make of a command word, and the statement of 30_encoding.md about the
reserved code: R61. -/

namespace Sys2Proof

/-- `op` is the remainder of the command word by 4 (R56). -/
theorem toNat_opField {aw : Nat} (w : CmdWord aw) : (opField w).toNat = w.toNat % 4 := by
  simp [opField, BitVec.extractLsb'_toNat]

/-- The decoder answers the reserved code as soon as `op` is `00` (R57, R61). -/
theorem decode_of_opField_zero {aw : Nat} {w : CmdWord aw} (h : opField w = 0b00#2) :
    decode w = .reservedOp00 := by
  simp [decode, h]

end Sys2Proof

namespace Sys2Proof.Machine

/-- A step with a command word presented is `exec` of the decoded instruction. -/
theorem step_word {s : State} {n : Nat} {w : CmdWord} {rest : List Input} (h : s.inputs = .word n w :: rest) :
    step s = exec (decode w) (present s n rest) := by
  rw [step, stepWith, h]

/-- Settles O5: `op` is the word's remainder by 4, so a word that 4 divides decodes to the reserved instruction,
which is all that a step then executes. -/
theorem reservedCodeRefused : Obligations.ReservedCodeRefused := by
  have hexec (s : State) : exec .reservedOp00 s = .refused .reservedCommandCode := rfl
  have hdecode (w : CmdWord) (hw : w.toNat % 4 = 0) : decode w = .reservedOp00 :=
    decode_of_opField_zero (BitVec.eq_of_toNat_eq ((toNat_opField w).trans hw))
  refine ⟨hexec, hdecode, fun s n w rest hinputs hw => ?_⟩
  rw [step_word hinputs, hdecode w hw, hexec]

end Sys2Proof.Machine
end

section
/-! SUPPORT. The merge as a mask and a shifted value, the image with a clear enable field, and the statements of
40_encoder_primitives.md about the code lookups and CLEAR_ENABLE: R72, R73 and R77. -/

namespace Sys2Proof.Machine

/-! ### Mask and value of a field -/

/-- The mask of a field is its ones moved to the field's place in the word. -/
theorem fieldMask_eq_shiftLeft (pos n : Nat) : fieldMask pos n = BitVec.ofNat CW (2 ^ n - 1) <<< pos := by
  apply BitVec.eq_of_toNat_eq
  simp [fieldMask, Nat.shiftLeft_eq]

@[simp] theorem fieldValue_zero (pos n : Nat) : fieldValue pos n 0 = 0#CW := by
  simp [fieldValue]

/-- Merging zero is masking. -/
theorem setBits_zero (word : Word) (pos n : Nat) : setBits word pos n 0 = word &&& ~~~fieldMask pos n := by
  simp [setBits]

/-! ### CLEAR_ENABLE as a mask -/

/-- R77's closed form. -/
theorem clearEnable_eq_and (dc : Word) (s : Slot) : clearEnable dc s = dc &&& ~~~(0x3#32 <<< (2 * s.val)) := by
  rw [clearEnable, setBits_zero, fieldMask_eq_shiftLeft, enOff]
  rfl

/-- A bit of the image that stands in a clear enable field is 0. -/
theorem getLsbD_eq_false_of_enOf_eq_zero {dc : Word} {s : Slot} (h : enOf dc s = 0#2) {i : Nat}
    (hi : enOff s ≤ i ∧ i < enOff s + 2) : dc.getLsbD i = false := by
  have hbit : (enOf dc s).getLsbD (i - enOff s) = dc.getLsbD i := by
    have hlt : i - enOff s < 2 := by omega
    rw [enOf, BitVec.getLsbD_extractLsb', Nat.add_sub_cancel' hi.1, decide_eq_true hlt, Bool.true_and]
  rw [← hbit, h, BitVec.getLsbD_zero]

/-- A clear enable field has nothing to clear (R77). -/
theorem clearEnable_of_enOf_eq_zero {dc : Word} {s : Slot} (h : enOf dc s = 0#2) : clearEnable dc s = dc := by
  apply BitVec.eq_of_getLsbD_eq
  intro i hi
  rw [getLsbD_clearEnable dc s i hi]
  split
  case isTrue hfield => exact (getLsbD_eq_false_of_enOf_eq_zero h hfield).symm
  case isFalse => rfl

/-- Settles O12: CLEAR_ENABLE merges zero into the enable field, so it is a mask, and on a clear field the mask
removes nothing. -/
theorem clearEnableClosedForm : Obligations.ClearEnableClosedForm :=
  ⟨fun dc s => ⟨clearEnable_eq_and dc s, enOf_clearEnable_same dc s, clOf_clearEnable dc s s,
    clearEnable_of_enOf_eq_zero⟩, by decide⟩

/-! ### The code lookups -/

/-- Settles O8: the tables are the definitions of the lookups; what is accepted is exactly an encoder's value
(`decCond_eq_some`) or a legal width's number of bytes (`legalWidth_eq_some`). -/
theorem conditionAndLengthCodes : Obligations.ConditionAndLengthCodes := by
  have hcond (c : CondCode) (lc : Condition) (h : decCond c = some lc) : encCond lc = c :=
    (decCond_eq_some.mp h).symm
  have hwidth (w : Nat) (lw : Width) (h : legalWidth w = some lw) :
      w = 1 ∧ lw = .one ∨ w = 2 ∧ lw = .two ∨ w = 4 ∧ lw = .four := by
    rw [legalWidth_eq_some] at h
    subst h
    cases lw with
    | one => exact .inl ⟨rfl, rfl⟩
    | two => exact .inr (.inl ⟨rfl, rfl⟩)
    | four => exact .inr (.inr ⟨rfl, rfl⟩)
  exact ⟨rfl, rfl, rfl, rfl, rfl, hcond, rfl, rfl, hwidth⟩

end Sys2Proof.Machine
end

section
/-! SUPPORT. `SLOT` and the result after each row of the state machine, the bits DEACTIVATE clears, and the
statements of 42_commands.md that follow: R96 and R99. -/

namespace Sys2Proof.Machine

/-! ### Reading `SLOT` -/

section slots
variable {aw : Nat} {s : State aw} {n : Nat} {x : Instance}

theorem readSlot_of_inst (h : s.insts[n]? = some x) : readSlot s n = some x.slot := by
  rw [readSlot, h]; rfl

@[simp] theorem readSlot_record (s : State aw) (o : Obs aw) (n : Nat) : readSlot (record s o) n = readSlot s n := rfl

theorem readSlot_writeSlot_same (h : s.insts[n]? = some x) (v : SlotIndex) :
    readSlot (writeSlot s n v) n = some v := by
  rw [readSlot, getElem?_writeSlot, if_pos rfl, h]; rfl

/-- Reset only writes `SLOT` (R130). -/
theorem resetInstance_of_inst (h : s.insts[n]? = some x) : resetInstance n s = .next (writeSlot s n none) := by
  simp only [resetInstance, h]

end slots

/-! ### The allocator below a free slot -/

/-- Where slot `r` is free, FIRST_FREE answers it or a lower one. -/
theorem exists_firstFree_le {dc : Word} {r : Slot} (h : slotFree dc r = true) :
    ∃ sl, firstFree dc = some sl ∧ sl ≤ r := by
  obtain ⟨sl, hsl⟩ := firstFree_isSome h
  refine ⟨sl, hsl, le_of_not_gt fun hlt => ?_⟩
  have hoccupied : slotFree dc r = false := (firstFree_some hsl).2 r hlt
  simp [hoccupied] at h

/-! ### What a command leaves in `SLOT` and reports -/

section rows
variable {s : State} {x : Instance} {k : Ctx}

/-- A command leaves in `SLOT`, and reports, what its function gives. -/
theorem exec_bound_slot_result {i : Instr} {f} (hf : commandOf i = some f) (hb : bound s s.cur x k) :
    ∃ t ev, exec i s = .next t ∧ readSlot t s.cur = some (f x.slot ⟨k, []⟩).slot ∧
      t.log = .command s.cur i (f x.slot ⟨k, []⟩).result ev :: s.log :=
  ⟨_, _, exec_bound hf hb, readSlot_commit _ s _ _ hb, rfl⟩

variable {a : Addr} {w : Nat} {c : CondCode}

/-- A valid request with a slot free once the held one is given up arms that slot (R92). -/
theorem exec_activate_arms {sl : Slot} (hb : bound s s.cur x k) (hv : valid a w c = true)
    (hfree : firstFree (releasedImage x.slot k.dc) = some sl) :
    ∃ t ev, exec (.activate a w c) s = .next t ∧ readSlot t s.cur = some (some sl) ∧
      t.log = .command s.cur (.activate a w c) .ok ev :: s.log := by
  obtain ⟨r, hr⟩ := valid_eq_true.mp hv
  have hrow := exec_bound_slot_result (i := .activate a w c) rfl hb
  rwa [activate_ok a w c x.slot ⟨k, []⟩ hr hfree] at hrow

/-- An ACTIVATE that raises the error only adds its observation (R94). -/
theorem exec_activate_raises {b : Bus Config.aw} (hb : bound s s.cur x k)
    (h : activate a w c x.slot ⟨k, []⟩ = raiseInvalid x.slot b) (hctx : b.ctx = k) :
    exec (.activate a w c) s =
      .next (record s (.command s.cur (.activate a w c) .invalidBreakpointRequest b.events)) := by
  rw [exec_bound rfl hb, h, commit_unchanged _ _ _ hb rfl hctx]; rfl

/-- ACTIVATE fails, with nothing changed but the observation, for an invalid request and with no slot free (R94). -/
theorem exec_activate_fails (hb : bound s s.cur x k)
    (h : valid a w c = false ∨ firstFree (releasedImage x.slot k.dc) = none) :
    ∃ ev, exec (.activate a w c) s =
      .next (record s (.command s.cur (.activate a w c) .invalidBreakpointRequest ev)) := by
  rcases activate_cases a w c x.slot ⟨k, []⟩ with ⟨-, e⟩ | ⟨r, -, -, e⟩ | ⟨r, sl, hr, hfree, -⟩
  · exact ⟨_, exec_activate_raises hb e rfl⟩
  · exact ⟨_, exec_activate_raises hb e rfl⟩
  · rcases h with hv | hfull
    · rw [valid_eq_false, hr] at hv; cases hv
    · rw [hfree] at hfull; cases hfull

end rows

/-- DEACTIVATE ends Unarmed, from either state (R96). -/
@[simp] theorem deactivate_slot {aw : Nat} (slot : SlotIndex) (b : Bus aw) : (deactivate slot b).slot = none := by
  cases slot <;> rfl

/-- DEACTIVATE raises no error (R96). -/
@[simp] theorem deactivate_result {aw : Nat} (slot : SlotIndex) (b : Bus aw) : (deactivate slot b).result = .ok := by
  cases slot <;> rfl

/-! ### The statements -/

/-- Settles O25: on Unarmed the command's output is what stands there already, so committing it only records; on Armed
it is the context with the held slot's enable field cleared, and `commit` writes only `SLOT` and that context. -/
theorem deactivateClearsOnlyEnable : Obligations.DeactivateClearsOnlyEnable := by
  intro s x k hb
  have hexec := exec_bound (i := .deactivate) rfl hb
  constructor
  · intro hunarmed
    rw [hexec, hunarmed, deactivate_none, commit_unchanged _ _ _ hb hunarmed.symm rfl]; rfl
  · intro r harmed
    rw [harmed, deactivate_some] at hexec
    refine ⟨_, _, hexec, commit_inst_self _ s _ _ hb, fun m hm => commit_inst_ne _ s _ _ hm,
      commit_ctx_self _ s _ hb, fun m hm => commit_ctx_ne _ s _ _ hm, fun u => rfl,
      enOf_clearEnable_same k.dc r, fun j hj hout => ?_, rfl, rfl, rfl⟩
    exact (getLsbD_clearEnable k.dc r j hj).trans (if_neg hout)

/-- Settles O30: one lemma for the rows in which ACTIVATE arms, one for those in which it fails; a re-arm always finds
a slot, because the one it gives up is free. -/
theorem stateMachineTable : Obligations.StateMachineTable := by
  intro s x k hb
  have hslot : readSlot s s.cur = some x.slot := readSlot_of_inst hb.1
  refine ⟨?_, ?_, ?_, ?_, ?_, ?_⟩
  · intro a w c sl hunarmed hv hfree
    exact exec_activate_arms hb hv (by rwa [hunarmed])
  · intro a w c hunarmed hbad
    obtain ⟨ev, hexec⟩ := exec_activate_fails hb (by rwa [hunarmed])
    exact ⟨_, ev, hexec, by rw [readSlot_record, hslot, hunarmed], rfl⟩
  · intro a w c r harmed hv
    obtain ⟨sl, hfree, hle⟩ := exists_firstFree_le (slotFree_clearEnable_same k.dc r)
    obtain ⟨t, ev, hexec, harms, hlog⟩ := exec_activate_arms hb hv (by rwa [harmed])
    exact ⟨t, ev, sl, hexec, harms, hle, hlog⟩
  · intro a w c r harmed hv
    obtain ⟨ev, hexec⟩ := exec_activate_fails hb (.inl hv)
    exact ⟨_, ev, hexec, by rw [readSlot_record, hslot, harmed], rfl, rfl⟩
  · rintro i (rfl | rfl)
    · simpa using exec_bound_slot_result (i := .deactivate) rfl hb
    · simpa using exec_bound_slot_result (i := .release) rfl hb
  · exact ⟨_, resetInstance_of_inst hb.1, readSlot_writeSlot_same hb.1 none, rfl⟩

end Sys2Proof.Machine
end

section
/-! SUPPORT. What ACTIVATE writes to the slot it takes, what a reset input does, and the statements of
70_reset_and_hazards.md that follow: R130 and R141. -/

namespace Sys2Proof.Machine

/-! ### Leftovers of a slot -/

/-- DEACTIVATE keeps every address (R141). -/
@[simp] theorem daOf_deactivate {aw : Nat} (slot : SlotIndex) (b : Bus aw) (u : Slot) :
    daOf (deactivate slot b).bus.ctx u = daOf b.ctx u :=
  congrArg (·[u]) (da_deactivate slot b)

/-- ACTIVATE fixes the enable field, the code and the address of the slot it takes by the request alone (R92). -/
theorem exec_activate_slot_fields {s : State} {x : Instance} {k : Ctx} {a : Addr} {w : Nat} {c : CondCode}
    {r : Request Config.aw} {sl : Slot} (hb : bound s s.cur x k) (hr : request a w c = some r)
    (hfree : firstFree (releasedImage x.slot k.dc) = some sl) :
    ∃ (t : State) (k' : Ctx), exec (.activate a w c) s = .next t ∧ t.ctxs[x.ctx]? = some k' ∧
      enOf k'.dc sl = 1#2 ∧ clOf k'.dc sl = encCl r.width r.cond ∧ daOf k' sl = r.addr := by
  refine ⟨_, _, exec_bound rfl hb, commit_ctx_self _ s _ hb, ?_⟩
  rw [activate_ok a w c x.slot ⟨k, []⟩ hr hfree]
  simp

/-- Settles O29: DEACTIVATE clears no more than an enable field, and what ACTIVATE writes to the slot it takes is the
same function of the request in both states. -/
theorem leftoversStayUntilReused : Obligations.LeftoversStayUntilReused := by
  refine ⟨fun s x k hb => ?_, fun s s2 x x2 k k2 a w c sl hb hb2 hv hfree hfree2 => ?_⟩
  · refine ⟨_, _, exec_bound (i := .deactivate) rfl hb, commit_ctx_self _ s _ hb, fun u => ⟨?_, ?_⟩⟩
    · rw [dc_deactivate, clOf_releasedImage]
    · rw [daOf_deactivate]
  · obtain ⟨r, hr⟩ := valid_eq_true.mp hv
    obtain ⟨t, k', hexec, hctx, hen, hcl, hda⟩ := exec_activate_slot_fields hb hr hfree
    obtain ⟨t2, k2', hexec2, hctx2, hen2, hcl2, hda2⟩ := exec_activate_slot_fields hb2 hr hfree2
    exact ⟨t, t2, k', k2', hexec, hexec2, hctx, hctx2,
      hen.trans hen2.symm, hcl.trans hcl2.symm, hda.trans hda2.symm⟩

/-! ### Reset -/

/-- A reset input that is admitted is the reset (R130, R131). -/
theorem createInstance_of_admitted {aw : Nat} {s : State aw} {n : Nat} {x : Instance} (h : s.insts[n]? = some x)
    (hadm : resetAdmitted s n x = true) : createInstance n s = resetInstance n s := by
  simp only [createInstance, h, if_pos hadm]

/-- A step with a reset presented is the reset input's effect. -/
theorem step_reset {s : State} {n : Nat} {rest : List Input} (h : s.inputs = .reset n :: rest) :
    step s = createInstance n (present s s.cur rest) := by
  rw [step, stepWith, h]

/-- Settles O45: reset is one write of `SLOT`, a reset input is admitted for an Unarmed instance outside a life, and the
machine after reset is made of Unarmed instances. -/
theorem resetUnarmsAndNothingElse : Obligations.ResetUnarmsAndNothingElse := by
  refine ⟨fun s n x hx => ?_, fun s n x rest hinputs hx hunarmed hlife => ?_, fun x hx => ?_⟩
  · refine ⟨_, resetInstance_of_inst hx, ?_, fun m hm => ?_, rfl, rfl, rfl, rfl⟩
    · rw [getElem?_writeSlot, if_pos rfl, hx]; rfl
    · rw [getElem?_writeSlot, if_neg hm]
  · have hadm : resetAdmitted (present s s.cur rest) n x = true := resetAdmitted_eq_true.mpr ⟨hunarmed, hlife⟩
    exact (step_reset hinputs).trans (createInstance_of_admitted hx hadm)
  · have hinst : x = ⟨none, 0⟩ := List.eq_of_mem_replicate (n := Config.ninst) hx
    rw [hinst]

end Sys2Proof.Machine
end

section
/-! SUPPORT. The merge as a number and its laws, the closed form and the laws of the image transformers, the allocator,
the codes, and the statements of 40_encoder_primitives.md, 41_slot_allocator.md and 10_state.md that follow: R11, R16,
R70, R71, R74, R76 to R81 and R83. -/

namespace Sys2Proof.Machine

/-! ### SETBITS -/

/-- A bit outside the range is kept (R71). -/
theorem getLsbD_setBits_outside (word : Word) {pos n i : Nat} (v : Nat) (hi : i < CW)
    (hout : ¬ (pos ≤ i ∧ i < pos + n)) : (setBits word pos n v).getLsbD i = word.getLsbD i := by
  rw [getLsbD_setBits _ _ _ _ _ hi, if_neg hout]

/-- A range without a bit of the word changes nothing. -/
theorem setBits_of_no_bit (word : Word) {pos n : Nat} (v : Nat) (h : n = 0 ∨ CW ≤ pos) :
    setBits word pos n v = word := by
  apply BitVec.eq_of_getLsbD_eq
  intro i hi
  exact getLsbD_setBits_outside word v hi (by omega)

/-- Of two merges into one range the last wins (R71). -/
theorem setBits_setBits_same (word : Word) (pos n u v : Nat) :
    setBits (setBits word pos n u) pos n v = setBits word pos n v := by
  apply BitVec.eq_of_getLsbD_eq
  intro i hi
  rw [getLsbD_setBits _ _ _ _ _ hi, getLsbD_setBits _ _ _ _ _ hi, getLsbD_setBits _ _ _ _ _ hi]
  split <;> rfl

/-- Merges into disjoint ranges commute (R71). -/
theorem setBits_comm (word : Word) {p n q m : Nat} (u v : Nat) (h : p + n ≤ q ∨ q + m ≤ p) :
    setBits (setBits word p n u) q m v = setBits (setBits word q m v) p n u := by
  apply BitVec.eq_of_getLsbD_eq
  intro i hi
  simp only [getLsbD_setBits _ _ _ _ _ hi]
  by_cases hq : q ≤ i ∧ i < q + m
  · rw [if_pos hq, if_neg (by omega), if_pos hq]
  · rw [if_neg hq, if_neg hq]

/-- The digits of a number with one range of bits replaced, from the lowest: those below, the new field, those above. -/
theorem testBit_replaced_range (word pos n v i : Nat) :
    (word % 2 ^ pos + 2 ^ pos * (v % 2 ^ n) + 2 ^ (pos + n) * (word / 2 ^ (pos + n))).testBit i =
      if pos ≤ i ∧ i < pos + n then v.testBit (i - pos) else word.testBit i := by
  have hgroup : word % 2 ^ pos + 2 ^ pos * (v % 2 ^ n) + 2 ^ (pos + n) * (word / 2 ^ (pos + n)) =
      2 ^ pos * (2 ^ n * (word / 2 ^ (pos + n)) + v % 2 ^ n) + word % 2 ^ pos := by
    rw [Nat.pow_add]; ring
  rw [hgroup, Nat.testBit_two_pow_mul_add _ (Nat.mod_lt _ (Nat.two_pow_pos pos)),
    Nat.testBit_two_pow_mul_add _ (Nat.mod_lt _ (Nat.two_pow_pos n)), Nat.testBit_div_two_pow,
    Nat.testBit_mod_two_pow, Nat.testBit_mod_two_pow]
  by_cases hlow : i < pos
  · simp [hlow, Nat.not_le.mpr hlow]
  · by_cases hmid : i < pos + n
    · simp [hlow, hmid, Nat.not_lt.mp hlow, show i - pos < n by omega]
    · simp [hlow, hmid, show ¬ i - pos < n by omega, show i - pos - n + (pos + n) = i by omega]

/-- Settles O6: bit by bit, the merged word has the digits of the number; a range that holds no bit of the word
changes nothing. -/
theorem setBitsReplacesOneRange : Obligations.SetBitsReplacesOneRange := by
  refine ⟨fun word pos n v => ?_, fun word pos v => setBits_of_no_bit word v (.inl rfl),
    fun word pos n v h => setBits_of_no_bit word v (.inr h), by decide⟩
  apply Nat.eq_of_testBit_eq
  intro i
  rw [BitVec.testBit_toNat, Nat.testBit_mod_two_pow, testBit_replaced_range]
  by_cases hi : i < 32
  · rw [getLsbD_setBits _ _ _ _ _ hi, BitVec.testBit_toNat, decide_eq_true hi, Bool.true_and]
  · rw [BitVec.getLsbD_of_ge _ _ (Nat.not_lt.mp hi), decide_eq_false hi, Bool.false_and]

/-- Settles O7: each law bit by bit, from what the merge does to one bit. -/
theorem setBitsLaws : Obligations.SetBitsLaws := by
  refine ⟨fun word pos n v i hi hout => getLsbD_setBits_outside word v hi hout, fun word pos n v _ hle => ?_,
    fun word pos n v => setBits_setBits_same word pos n v v, setBits_setBits_same,
    fun word p n u q m v h => setBits_comm word u v h⟩
  rw [extract_setBits_inside word v hle le_rfl le_rfl, Nat.sub_self, Nat.shiftRight_zero, BitVec.toNat_ofNat]

/-! ### The fields of a slot -/

/-- The condition and length field is its length code above its condition code (R74, R79). -/
theorem clOf_eq_append (dc : Word) (s : Slot) : clOf dc s = lenOf dc s ++ condOf dc s := by
  apply BitVec.eq_of_getLsbD_eq
  intro i hi
  rw [BitVec.getLsbD_append]
  simp only [clOf, lenOf, condOf, BitVec.getLsbD_extractLsb']
  by_cases hlow : i < 2
  · simp [hlow, hi]
  · have hplace : clOff s + 2 + (i - 2) = clOff s + i := by omega
    have hlt : i - 2 < 2 := by simp only [clW] at hi; omega
    simp [hlow, hi, hplace, hlt]

/-- Settles O9: the six field values by evaluation, the decoders from `decLen_encLen` and `decCond_encCond`. -/
theorem conditionLengthField : Obligations.ConditionLengthField := by
  refine ⟨fun w c => ?_, decLen_encLen, rfl, decCond_encCond, fun dc s => ⟨clOf_eq_append dc s, ?_⟩⟩
  · cases w <;> cases c <;> decide
  · simp [lOf, enOf, enW]

/-- Settles O10: the offsets are their definitions, and the ranges those of `slot_range` and `slot_ranges`. -/
theorem slotFieldsDisjoint : Obligations.SlotFieldsDisjoint := by
  refine ⟨fun s => ⟨rfl, rfl, slot_range s⟩, fun s t hne => ?_⟩
  obtain ⟨hen, hcl, -⟩ := slot_ranges s t hne
  exact ⟨hen, hcl⟩

/-! ### PACK_SLOT and CLEAR_ENABLE -/

/-- The merges of a slot's two fields stand in either order (R76). -/
theorem packSlot_eq_enable_first (dc : Word) (s : Slot) (w : Width) (c : Condition) :
    packSlot dc s w c = setBits (setBits dc (enOff s) enW enSet) (clOff s) clW (encCl w c).toNat := by
  obtain ⟨hen, hcl, -⟩ := slot_range s
  exact setBits_comm dc _ _ (.inr (by simp only [enW]; omega))

/-- The code of a slot stands clear of its enable field. -/
theorem code_and_not_enable_mask (s : Slot) (cl : BitVec 4) :
    (cl.zeroExtend 32 <<< (16 + 4 * s.val)) &&& ~~~(0x3#32 <<< (2 * s.val)) =
      cl.zeroExtend 32 <<< (16 + 4 * s.val) := by
  revert s cl; decide

/-- R76's closed form. -/
theorem packSlot_eq_or (dc : Word) (s : Slot) (w : Width) (c : Condition) :
    packSlot dc s w c =
      (dc &&& ~~~(0xF#32 <<< (16 + 4 * s.val)) &&& ~~~(0x3#32 <<< (2 * s.val)))
        ||| ((encCl w c).zeroExtend 32 <<< (16 + 4 * s.val)) ||| (1#32 <<< (2 * s.val)) := by
  have henable : fieldValue (enOff s) enW enSet = 1#32 <<< (2 * s.val) := by revert s; decide
  have hcode : fieldValue (clOff s) clW (encCl w c).toNat = (encCl w c).zeroExtend 32 <<< (16 + 4 * s.val) := by
    generalize encCl w c = cl
    revert s cl; decide
  have hmask : fieldMask (clOff s) clW = 0xF#32 <<< (16 + 4 * s.val) := fieldMask_eq_shiftLeft _ _
  have hmask' : fieldMask (enOff s) enW = 0x3#32 <<< (2 * s.val) := fieldMask_eq_shiftLeft _ _
  rw [packSlot, setBits, setBits, hcode, henable, hmask, hmask', BitVec.and_or_distrib_right, code_and_not_enable_mask]

/-- Settles O11: the two merges as masks and values, the code's value untouched by the enable field's mask. -/
theorem packSlotClosedForm : Obligations.PackSlotClosedForm :=
  fun dc s w c => ⟨packSlot_eq_or dc s w c, packSlot_eq_enable_first dc s w c⟩

/-- Packing a slot again overwrites all six of its bits. -/
theorem packSlot_packSlot (dc : Word) (s : Slot) (w1 w2 : Width) (c1 c2 : Condition) :
    packSlot (packSlot dc s w1 c1) s w2 c2 = packSlot dc s w2 c2 := by
  apply BitVec.eq_of_getLsbD_eq
  intro i hi
  simp only [getLsbD_packSlot _ _ _ _ _ hi]
  split
  · rfl
  · split <;> rfl

/-- Packing and clearing a slot keeps every bit outside its two fields. -/
theorem getLsbD_clearEnable_packSlot (dc : Word) (s : Slot) (w : Width) (c : Condition) {j : Nat} (hj : j < CW)
    (hen : ¬ (enOff s ≤ j ∧ j < enOff s + 2)) (hcl : ¬ (clOff s ≤ j ∧ j < clOff s + 4)) :
    (clearEnable (packSlot dc s w c) s).getLsbD j = dc.getLsbD j := by
  rw [getLsbD_clearEnable _ _ _ hj, if_neg hen, getLsbD_packSlot _ _ _ _ _ hj, if_neg hen, if_neg hcl]

/-- Settles O13: locality, read-back, round trip and overwrite, each from the fields of the two images. -/
theorem transformerLaws : Obligations.TransformerLaws :=
  ⟨fun dc s t w c h => ⟨enOf_packSlot_ne dc w c h, clOf_packSlot_ne dc w c h, enOf_clearEnable_ne dc h,
      clOf_clearEnable dc s t⟩,
    fun dc s w c => ⟨extract_packSlot_unused dc s w c, extract_clearEnable_unused dc s, enOf_packSlot_same dc s w c,
      condOf_packSlot_same dc s w c, lenOf_packSlot_same dc s w c⟩,
    fun dc s w c => ⟨enOf_clearEnable_same _ s, fun _ hj hen hcl => getLsbD_clearEnable_packSlot dc s w c hj hen hcl⟩,
    packSlot_packSlot⟩

/-! ### The allocator -/

/-- A slot is free exactly when both bits of its enable field are 0 (R80). -/
theorem slotFree_iff (dc : Word) (s : Slot) :
    slotFree dc s = true ↔ dc.getLsbD (2 * s.val) = false ∧ dc.getLsbD (2 * s.val + 1) = false := by
  have hbit (i : Nat) (hi : i < 2) : (enOf dc s).getLsbD i = dc.getLsbD (2 * s.val + i) := by
    simp [enOf, enOff, hi]
  rw [slotFree, beq_iff_eq]
  constructor
  · intro h
    exact ⟨by rw [← Nat.add_zero (2 * s.val), ← hbit 0 (by decide), h]; rfl, by rw [← hbit 1 (by decide), h]; rfl⟩
  · rintro ⟨h0, h1⟩
    apply BitVec.eq_of_getLsbD_eq
    intro i hi
    rw [hbit i hi]
    obtain rfl | rfl : i = 0 ∨ i = 1 := by simp only [enW] at hi; omega
    · exact h0
    · exact h1

/-- The lowest free slot is the one FIRST_FREE answers (R81). -/
theorem firstFree_eq_some {dc : Word} {s : Slot} :
    firstFree dc = some s ↔ slotFree dc s = true ∧ ∀ t, t < s → slotFree dc t = false := by
  refine ⟨firstFree_some, fun ⟨hfree, hbelow⟩ => ?_⟩
  obtain ⟨t, ht⟩ := firstFree_isSome hfree
  obtain ⟨htfree, htbelow⟩ := firstFree_some ht
  have hts : ¬ t < s := fun h => by simp [hbelow t h] at htfree
  have hst : ¬ s < t := fun h => by simp [htbelow s h] at hfree
  rw [ht, le_antisymm (not_lt.mp hst) (not_lt.mp hts)]

theorem firstFree_eq_none {dc : Word} : firstFree dc = none ↔ ∀ s, slotFree dc s = false := by
  refine ⟨firstFree_none, fun h => Option.eq_none_iff_forall_ne_some.mpr fun s hs => ?_⟩
  have hfree := (firstFree_some hs).1
  rw [h s] at hfree
  cases hfree

/-- An enable field lies in bits 7:0. -/
theorem enOf_eq_of_low_bits {dc dc' : Word} (h : dc.extractLsb' 0 8 = dc'.extractLsb' 0 8) (s : Slot) :
    enOf dc s = enOf dc' s := by
  have hslice (d : Word) : enOf d s = (d.extractLsb' 0 8).extractLsb' (enOff s) enW := by
    obtain ⟨hen, -, -⟩ := slot_range s
    apply BitVec.eq_of_getLsbD_eq
    intro i hi
    have hlt : enOff s + i < 8 := by simp only [enW] at hi; omega
    simp [enOf, hlt]
  rw [hslice, hslice, h]

/-- Settles O14: the allocator through the enable fields, which lie in bits 7:0. -/
theorem firstFreeIsLowestFree : Obligations.FirstFreeIsLowestFree :=
  ⟨slotFree_iff, fun _ _ => firstFree_eq_some, fun _ => firstFree_eq_none,
    fun _ _ h => firstFree_congr (enOf_eq_of_low_bits h)⟩

/-- The slot given up is the one offered exactly when every slot below it is occupied (R83 (c)). -/
theorem firstFree_clearEnable_eq_self (dc : Word) (t : Slot) :
    firstFree (clearEnable dc t) = some t ↔ ∀ u, u < t → slotFree dc u = false := by
  rw [firstFree_eq_some]
  constructor
  · rintro ⟨-, hbelow⟩ u hu
    rw [← slotFree_clearEnable_ne dc hu.ne]
    exact hbelow u hu
  · intro hbelow
    refine ⟨slotFree_clearEnable_same dc t, fun u hu => ?_⟩
    rw [slotFree_clearEnable_ne dc hu.ne]
    exact hbelow u hu

/-- Settles O15: a slot given up is free, so a first free slot is there; a slot just packed is not free. -/
theorem releasedSlotIsOfferedReservedIsNot : Obligations.ReleasedSlotIsOfferedReservedIsNot := by
  refine ⟨fun dc t => ⟨slotFree_clearEnable_same dc t, exists_firstFree_le (slotFree_clearEnable_same dc t),
    firstFree_clearEnable_eq_self dc t⟩, fun dc s w c h => ?_⟩
  have hfree := (firstFree_some h).1
  rw [slotFree_packSlot_same] at hfree
  cases hfree

/-! ### Validation -/

/-- Settles O54: every code by evaluation. -/
theorem slotAndResultCodes : Obligations.SlotAndResultCodes := by
  unfold Obligations.SlotAndResultCodes
  decide

/-- The presented codes that are legal (R72). -/
theorem exists_encCond_iff {c : CondCode} : (∃ lc, c = encCond lc) ↔ c = 0b01#2 ∨ c = 0b11#2 := by
  constructor
  · rintro ⟨lc, rfl⟩
    cases lc
    · exact .inl rfl
    · exact .inr rfl
  · rintro (rfl | rfl)
    · exact ⟨.write, rfl⟩
    · exact ⟨.readOrWrite, rfl⟩

/-- The presented widths that are legal (R73). -/
theorem exists_widthBytes_iff {w : Nat} : (∃ lw, w = widthBytes lw) ↔ w = 1 ∨ w = 2 ∨ w = 4 := by
  constructor
  · rintro ⟨lw, rfl⟩
    cases lw <;> decide
  · rintro (rfl | rfl | rfl)
    · exact ⟨.one, rfl⟩
    · exact ⟨.two, rfl⟩
    · exact ⟨.four, rfl⟩

/-- The four preconditions of a request (R90), at every address width. -/
theorem valid_iff {aw : Nat} {a : BitVec aw} {w : Nat} {c : CondCode} :
    valid a w c = true ↔
      (w = 1 ∨ w = 2 ∨ w = 4) ∧ (c = 0b01#2 ∨ c = 0b11#2) ∧ a ≠ 0#aw ∧ a.toNat % w = 0 := by
  rw [valid_eq_true, ← exists_widthBytes_iff, ← exists_encCond_iff]
  constructor
  · rintro ⟨r, hr⟩
    obtain ⟨-, hw, hc, ha, hmod⟩ := request_eq_some.mp hr
    exact ⟨⟨_, hw⟩, ⟨_, hc⟩, ha, hmod⟩
  · rintro ⟨⟨lw, hw⟩, ⟨lc, hc⟩, ha, hmod⟩
    exact ⟨⟨a, lw, lc⟩, request_eq_some.mpr ⟨rfl, hw, hc, ha, hmod⟩⟩

/-- A request with an illegal width is invalid (R90). -/
theorem valid_eq_false_of_width {aw : Nat} {a : BitVec aw} {w : Nat} {c : CondCode}
    (hw : ¬ (w = 1 ∨ w = 2 ∨ w = 4)) : valid a w c = false :=
  Bool.eq_false_iff.mpr fun hv => hw (valid_iff.mp hv).1

/-- A legal width divides the size of an address space of at least four bytes. -/
theorem width_dvd_two_pow {aw w : Nat} (haw : 3 ≤ aw) (hw : w = 1 ∨ w = 2 ∨ w = 4) : w ∣ 2 ^ aw := by
  have h4 : 4 ∣ 2 ^ aw := (by decide : 4 ∣ 2 ^ 3).trans (Nat.pow_dvd_pow 2 haw)
  rcases hw with rfl | rfl | rfl
  · exact one_dvd _
  · exact (by decide : 2 ∣ 4).trans h4
  · exact h4

/-- Settles O16: the four preconditions are `request_eq_some`; the address and the size of the address space are both
multiples of the width. -/
theorem validIffPreconditions : Obligations.ValidIffPreconditions := by
  intro aw a w c haw
  refine ⟨valid_iff, fun hv => ?_⟩
  obtain ⟨hw, -, -, hmod⟩ := valid_iff.mp hv
  have htop : 2 ^ aw % w = 0 := Nat.mod_eq_zero_of_dvd (width_dvd_two_pow haw hw)
  exact Nat.ModEq.add_le_of_lt (hmod.trans htop.symm) a.isLt

end Sys2Proof.Machine
end

section
/-! SUPPORT. The command word as a number, what the decoder reads in a packed one, and the statements of
30_encoding.md and 95_test_vectors.md about words: R56 and R57. -/

namespace Sys2Proof

/-- What the decoder reads in four packed fields: `op` chooses the instruction (R57). -/
theorem decode_packCmd {aw : Nat} (a : BitVec aw) (w : BitVec 8) (c : CondCode) (op : BitVec 2) :
    decode (packCmd a w c op) =
      if op = 1#2 then .activate a w.toNat c
      else if op = 2#2 then .deactivate
      else if op = 3#2 then .release
      else .reservedOp00 := by
  have hop : op = 0#2 ∨ op = 1#2 ∨ op = 2#2 ∨ op = 3#2 := by revert op; decide
  rcases hop with rfl | rfl | rfl | rfl <;> simp [decode]

/-- Putting a field below a number is multiplying the number out and adding the field. -/
theorem toNat_append_eq_add {m n : Nat} (x : BitVec m) (y : BitVec n) :
    (x ++ y).toNat = x.toNat * 2 ^ n + y.toNat := by
  rw [BitVec.toNat_append, ← Nat.shiftLeft_add_eq_or_of_lt y.isLt, Nat.shiftLeft_eq]

/-- The packed word as a number: the places of the four fields (R56). -/
theorem packCmd_eq_ofNat {aw : Nat} (a : BitVec aw) (w : BitVec 8) (c : CondCode) (op : BitVec 2) :
    packCmd a w c op = BitVec.ofNat (cmdBits aw) (op.toNat + 4 * c.toNat + 16 * w.toNat + 4096 * a.toNat) := by
  have hnum : (packCmd a w c op).toNat = op.toNat + 4 * c.toNat + 16 * w.toNat + 4096 * a.toNat := by
    rw [packCmd, toNat_append_eq_add, toNat_append_eq_add, toNat_append_eq_add]
    omega
  rw [← hnum, BitVec.ofNat_toNat, BitVec.setWidth_eq]

/-- The packed word of a width operand that fits its field. -/
theorem packCmd_ofNat_width {aw : Nat} (a : BitVec aw) {w : Nat} (c : CondCode) (op : BitVec 2) (hw : w < 256) :
    packCmd a (BitVec.ofNat 8 w) c op =
      BitVec.ofNat (cmdBits aw) (op.toNat + 4 * c.toNat + 16 * w + 4096 * a.toNat) := by
  rw [packCmd_eq_ofNat, BitVec.toNat_ofNat, Nat.mod_eq_of_lt hw]

end Sys2Proof

namespace Sys2Proof.Machine

/-- Settles O1: the four fields of a packed word read back, and a well-formed width fits its eight bits. -/
theorem decodeOfEncode : Obligations.DecodeOfEncode := by
  intro aw i hi
  cases i with
  | activate a w c =>
    have hw : w < 256 := of_decide_eq_true hi
    rw [encode, decode_packCmd, if_pos rfl, BitVec.toNat_ofNat, Nat.mod_eq_of_lt hw]
  | deactivate => simp [encode, decode_packCmd]
  | release => simp [encode, decode_packCmd]
  | reservedOp00 => simp [encode, decode_packCmd]

/-- Settles O2: a word with those fields is the packed word, which decodes by its `op` code; and a width above 255 is
no legal width. -/
theorem commandWordFields : Obligations.CommandWordFields := by
  intro aw
  refine ⟨fun a w c op hw => ?_, fun a w c hw => packCmd_ofNat_width a c 1#2 hw, ?_, ?_, fun a w c hw => ⟨?_, ?_⟩⟩
  · rw [← packCmd_ofNat_width a c op hw, decode_packCmd, BitVec.toNat_ofNat, Nat.mod_eq_of_lt hw]
  · simpa [encode] using packCmd_eq_ofNat 0#aw 0#8 0#2 0b10#2
  · simpa [encode] using packCmd_eq_ofNat 0#aw 0#8 0#2 0b11#2
  · exact decide_eq_false (by omega)
  · exact valid_eq_false_of_width (by omega)

/-- Settles O3: the decoder run on the spec's six words. -/
theorem testVectorWordsDecode : Obligations.TestVectorWordsDecode := by
  unfold Obligations.TestVectorWordsDecode
  decide

end Sys2Proof.Machine
end

section
/-! SUPPORT. What one step does to the bindings, and the statement of 60_exceptions.md that follows: R123. -/

namespace Sys2Proof.Machine

section bindings
variable {aw : Nat} (s : State aw)

/-- A write of `SLOT` changes no binding (R123). -/
@[simp] theorem map_ctx_writeSlot (n : Nat) (v : SlotIndex) :
    (writeSlot s n v).insts.map Instance.ctx = s.insts.map Instance.ctx := by
  apply List.ext_getElem?
  intro m
  rw [List.getElem?_map, List.getElem?_map, getElem?_writeSlot]
  split
  · rw [Option.map_map]; rfl
  · rfl

/-- A command changes no binding and no number of contexts (R123). -/
theorem commit_bindings (k : Nat) (i : Instr aw) (o : CommandOut aw) :
    (commit s k i o).insts.map Instance.ctx = s.insts.map Instance.ctx ∧
      (commit s k i o).ctxs.length = s.ctxs.length :=
  ⟨map_ctx_writeSlot s s.cur o.slot, List.length_set⟩

/-- No step changes a binding or the number of contexts (R123, R133). -/
theorem stepAt_bindings {t : State aw} (h : stepAt s = .next t) :
    t.insts.map Instance.ctx = s.insts.map Instance.ctx ∧ t.ctxs.length = s.ctxs.length := by
  rcases stepAt_next h with ⟨-, rfl⟩ | ⟨n, i, rest, f, x, c, -, -, -, rfl⟩ | ⟨n, rest, x, -, -, -, -, rfl⟩ |
    ⟨k, v, rest, c, -, -, rfl⟩ | ⟨k, d, v, rest, c, -, -, rfl⟩ | ⟨k, a, rest, c, -, -, rfl⟩
  case inl => exact ⟨rfl, rfl⟩
  case inr.inl => exact commit_bindings (present s n rest) x.ctx i _
  case inr.inr.inl => exact ⟨map_ctx_writeSlot (present s s.cur rest) n none, rfl⟩
  case inr.inr.inr.inl => exact ⟨rfl, List.length_set⟩
  case inr.inr.inr.inr.inl => exact ⟨rfl, List.length_set⟩
  case inr.inr.inr.inr.inr => exact ⟨rfl, rfl⟩

/-- That every instance is bound depends on the bindings and the number of contexts alone. -/
theorem allBound_iff : Safety.allBound s ↔ ∀ k ∈ s.insts.map Instance.ctx, k < s.ctxs.length := by
  rw [Safety.allBound, List.forall_mem_map]

end bindings

/-- Settles O42: no step changes what the premise depends on. -/
theorem bindingsKeptByEveryStep : Obligations.BindingsKeptByEveryStep := by
  intro s t hbound hstep
  obtain ⟨hctx, hlen⟩ := stepAt_bindings s (stepAt_of_step hstep)
  refine ⟨?_, hctx, hlen⟩
  rw [allBound_iff, hctx, hlen]
  exact (allBound_iff s).mp hbound

/-- Settles O39: `commit` writes the `SLOT` of the current instance and the context it is bound to. -/
theorem otherInstancesAndContextsUntouched : Obligations.OtherInstancesAndContextsUntouched := by
  intro s t i x k hexec hb
  obtain ⟨f, -, rfl⟩ := exec_next_of_bound hexec hb
  obtain ⟨hctx, hlen⟩ := commit_bindings s x.ctx i (f x.slot ⟨k, []⟩)
  exact ⟨fun n hn => commit_inst_ne i s _ _ hn, fun n hn => commit_ctx_ne i s _ _ hn, hctx, hlen, rfl, rfl⟩

end Sys2Proof.Machine
end

section
/-! SUPPORT. What a command leaves of the occupied slots, what one step keeps of the ownership invariant, and the
statements of 41_slot_allocator.md and 60_exceptions.md that follow: R83 (e) and R122. -/

namespace Sys2Proof.Machine

/-! ### Occupied slots -/

theorem slotFree_releasedImage_ne {slot : SlotIndex} {u : Slot} (h : slot ≠ some u) (dc : Word) :
    slotFree (releasedImage slot dc) u = slotFree dc u := by
  simp only [slotFree, enOf_releasedImage_ne h]

section occupancy
variable {aw : Nat} {i : Instr aw} {f : SlotIndex → Bus aw → CommandOut aw} (slot : SlotIndex) (b : Bus aw)

/-- What a command does to `SLOT` and the control word: nothing, giving up the held slot, or taking one that is free
once the held one is given up. -/
theorem command_slot_cases (hf : commandOf i = some f) :
    ((f slot b).slot = slot ∧ (f slot b).bus.ctx.dc = b.ctx.dc) ∨
    ((f slot b).slot = none ∧ (f slot b).bus.ctx.dc = releasedImage slot b.ctx.dc) ∨
    ∃ s w c, slotFree (releasedImage slot b.ctx.dc) s = true ∧ (f slot b).slot = some s ∧
      (f slot b).bus.ctx.dc = packSlot (releasedImage slot b.ctx.dc) s w c := by
  cases i with
  | activate a w c =>
    cases hf
    rcases activate_cases a w c slot b with ⟨-, e⟩ | ⟨r, -, -, e⟩ | ⟨r, s, -, hfree, e⟩
    · exact .inl (by rw [e]; exact ⟨rfl, rfl⟩)
    · exact .inl (by rw [e]; exact ⟨rfl, rfl⟩)
    · exact .inr (.inr ⟨s, r.width, r.cond, (firstFree_some hfree).1, by rw [e]; exact ⟨rfl, rfl⟩⟩)
  | deactivate => cases hf; exact .inr (.inl ⟨deactivate_slot slot b, dc_deactivate slot b⟩)
  | release => cases hf; exact .inr (.inl ⟨deactivate_slot slot b, dc_deactivate slot b⟩)
  | reservedOp00 => cases hf

/-- The slot an instance holds after its command is occupied, if the one before was (R83 (a)). -/
theorem command_occupies_held (hf : commandOf i = some f) (hheld : ∀ t, slot = some t → slotFree b.ctx.dc t = false)
    {u : Slot} (hu : (f slot b).slot = some u) : slotFree (f slot b).bus.ctx.dc u = false := by
  rcases command_slot_cases slot b hf with ⟨hs, hdc⟩ | ⟨hs, -⟩ | ⟨s, w, c, -, hs, hdc⟩
  · rw [hdc]; exact hheld u (hs.symm.trans hu)
  · rw [hs] at hu; cases hu
  · obtain rfl : s = u := Option.some.inj (hs.symm.trans hu)
    rw [hdc, slotFree_packSlot_same]

/-- A command frees no slot but the one it gives up (R83 (b)). -/
theorem command_keeps_occupied (hf : commandOf i = some f) {u : Slot} (hne : slot ≠ some u)
    (hu : slotFree b.ctx.dc u = false) : slotFree (f slot b).bus.ctx.dc u = false := by
  rcases command_slot_cases slot b hf with ⟨-, hdc⟩ | ⟨-, hdc⟩ | ⟨s, w, c, -, -, hdc⟩
  · rw [hdc, hu]
  · rw [hdc, slotFree_releasedImage_ne hne, hu]
  · rw [hdc]
    by_cases hs : u = s
    · rw [hs, slotFree_packSlot_same]
    · rw [slotFree_packSlot_ne _ w c hs, slotFree_releasedImage_ne hne, hu]

/-- A command takes no occupied slot but the one it gives up. -/
theorem command_avoids_occupied (hf : commandOf i = some f) {u : Slot} (hne : slot ≠ some u)
    (hu : slotFree b.ctx.dc u = false) : (f slot b).slot ≠ some u := by
  rcases command_slot_cases slot b hf with ⟨hs, -⟩ | ⟨hs, -⟩ | ⟨s, w, c, hfree, hs, -⟩
  · rwa [hs]
  · rw [hs]; exact Option.some_ne_none u |>.symm
  · rintro h
    obtain rfl : s = u := Option.some.inj (hs.symm.trans h)
    rw [slotFree_releasedImage_ne hne, hu] at hfree
    cases hfree

end occupancy

/-! ### The ownership invariant -/

section ownership
variable {aw : Nat} {s t : State aw}

/-- The invariant speaks of the instances and the contexts alone. -/
theorem ownership_congr (hi : t.insts = s.insts) (hc : t.ctxs = s.ctxs) (h : Safety.ownership s) :
    Safety.ownership t := by
  unfold Safety.ownership Safety.owned Safety.exclusive at h ⊢
  rwa [hi, hc]

/-- Replacing a context by one in which every slot held on it is occupied keeps the invariant. -/
theorem ownership_writeCtx (h : Safety.ownership s) (k : Nat) (c : Context aw)
    (hc : ∀ x ∈ s.insts, x.ctx = k → ∀ u, x.slot = some u → slotFree c.dc u = false) :
    Safety.ownership (writeCtx s k c) := by
  obtain ⟨howned, hexcl⟩ := h
  refine ⟨fun x hx d hd u hu => ?_, hexcl⟩
  by_cases hk : k = x.ctx
  · subst hk
    rw [writeCtx_ctxs, List.getElem?_set_self'] at hd
    obtain ⟨-, -, rfl⟩ := Option.map_eq_some_iff.mp hd
    exact hc x hx rfl u hu
  · rw [writeCtx_ctxs, List.getElem?_set_ne hk] at hd
    exact howned x hx d hd u hu

/-- A slot that another instance on the context holds is occupied, and not the one the current instance gives up. -/
theorem occupied_of_other_holder (h : Safety.ownership s) {x y : Instance} {c : Context aw} (hb : bound s s.cur x c)
    {n : Nat} {u : Slot} (hn : n ≠ s.cur) (hy : s.insts[n]? = some y) (hk : y.ctx = x.ctx) (hu : y.slot = some u) :
    slotFree c.dc u = false ∧ x.slot ≠ some u :=
  ⟨h.1 y (List.mem_of_getElem? hy) c (hk ▸ hb.2) u hu, h.2 n s.cur y x hn hy hb.1 hk u hu⟩

section command
variable (h : Safety.ownership s) {i : Instr aw} {f : SlotIndex → Bus aw → CommandOut aw} (hf : commandOf i = some f)
  {x : Instance} {c : Context aw} (hb : bound s s.cur x c)
include h hf hb

/-- After a command every held slot is occupied: the one its instance holds, and those of the others, which the
command does not free. -/
theorem owned_commit : Safety.owned (commit s x.ctx i (f x.slot ⟨c, []⟩)) := by
  intro y hy d hd u hu
  obtain ⟨n, hn⟩ := List.mem_iff_getElem?.mp hy
  by_cases hcur : n = s.cur
  · obtain rfl : ⟨_, x.ctx⟩ = y := Option.some.inj ((commit_inst_self i s x.ctx _ hb).symm.trans (hcur ▸ hn))
    rw [commit_ctx_self i s _ hb] at hd
    cases hd
    exact command_occupies_held x.slot ⟨c, []⟩ hf (h.1 x (List.mem_of_getElem? hb.1) c hb.2) hu
  · rw [commit_inst_ne i s _ _ hcur] at hn
    by_cases hk : y.ctx = x.ctx
    · rw [hk, commit_ctx_self i s _ hb] at hd
      cases hd
      obtain ⟨hocc, hne⟩ := occupied_of_other_holder h hb hcur hn hk hu
      exact command_keeps_occupied x.slot ⟨c, []⟩ hf hne hocc
    · rw [commit_ctx_ne i s _ _ hk] at hd
      exact h.1 y (List.mem_of_getElem? hn) d hd u hu

/-- After its command an instance holds no slot that another instance on the context holds. -/
theorem command_slot_ne_other {n : Nat} {y : Instance} {u : Slot} (hn : n ≠ s.cur) (hy : s.insts[n]? = some y)
    (hk : y.ctx = x.ctx) (hu : y.slot = some u) : (f x.slot ⟨c, []⟩).slot ≠ some u := by
  obtain ⟨hocc, hne⟩ := occupied_of_other_holder h hb hn hy hk hu
  exact command_avoids_occupied x.slot ⟨c, []⟩ hf hne hocc

/-- After a command no two instances on one context hold the same slot: only one `SLOT` is new, and it names no
slot another instance holds. -/
theorem exclusive_commit : Safety.exclusive (commit s x.ctx i (f x.slot ⟨c, []⟩)) := by
  have hself := commit_inst_self i s x.ctx (f x.slot ⟨c, []⟩) hb
  intro m n y z hmn hy hz hk u hyu hzu
  by_cases hm : m = s.cur
  · have hn : n ≠ s.cur := fun e => hmn (hm.trans e.symm)
    obtain rfl : ⟨_, x.ctx⟩ = y := Option.some.inj (hself.symm.trans (hm ▸ hy))
    rw [commit_inst_ne i s _ _ hn] at hz
    exact command_slot_ne_other h hf hb hn hz hk.symm hzu hyu
  · rw [commit_inst_ne i s _ _ hm] at hy
    by_cases hn : n = s.cur
    · obtain rfl : ⟨_, x.ctx⟩ = z := Option.some.inj (hself.symm.trans (hn ▸ hz))
      exact command_slot_ne_other h hf hb hm hy hk hyu hzu
    · rw [commit_inst_ne i s _ _ hn] at hz
      exact h.2 m n y z hmn hy hz hk u hyu hzu

/-- A command of the current instance keeps the invariant. -/
theorem ownership_commit : Safety.ownership (commit s x.ctx i (f x.slot ⟨c, []⟩)) :=
  ⟨owned_commit h hf hb, exclusive_commit h hf hb⟩

end command

/-- Every coordinated step keeps the invariant (R83 (e)). -/
theorem stepAt_keeps_ownership (h : Safety.ownership s)
    (hcoord : ∀ inp rest, s.inputs = inp :: rest → Safety.coordinated s inp) (hstep : stepAt s = .next t) :
    Safety.ownership t := by
  have hpresent (n : Nat) (rest : List (Input aw)) : Safety.ownership (present s n rest) := ownership_congr rfl rfl h
  rcases stepAt_next hstep with ⟨-, rfl⟩ | ⟨n, i, rest, f, x, c, -, hf, hb, rfl⟩ |
    ⟨n, rest, x, -, hx, hunarmed, -, rfl⟩ | ⟨k, v, rest, c, hinputs, -, rfl⟩ | ⟨k, d, v, rest, c, -, hc, rfl⟩ |
    ⟨k, a, rest, c, -, -, rfl⟩
  case inl => exact h
  case inr.inl => exact ownership_commit (hpresent n rest) hf hb
  case inr.inr.inl =>
    rw [← hunarmed, writeSlot_self (present s s.cur rest) n hx]
    exact hpresent _ rest
  case inr.inr.inr.inl => exact ownership_writeCtx (hpresent _ rest) k _ (hcoord _ rest hinputs)
  case inr.inr.inr.inr.inl =>
    refine ownership_writeCtx (hpresent _ rest) k _ fun x hx hk => ?_
    exact h.1 x hx c (hk ▸ hc)
  case inr.inr.inr.inr.inr => exact ownership_congr rfl rfl h

/-- Exclusive ownership as a relation between any two entries of the list of instances. -/
theorem pairwise_of_exclusive (h : Safety.exclusive s) :
    s.insts.Pairwise fun x y => x.ctx = y.ctx → ∀ u, x.slot = some u → y.slot ≠ some u := by
  rw [List.pairwise_iff_getElem]
  intro m n hm hn hmn
  exact h m n _ _ hmn.ne (List.getElem?_eq_getElem hm) (List.getElem?_eq_getElem hn)

end ownership

/-- Settles O40: the step lemma at the width of `step`. -/
theorem ownershipKeptByEveryStep : Obligations.OwnershipKeptByEveryStep :=
  fun _ _ h hcoord hstep => stepAt_keeps_ownership h hcoord (stepAt_of_step hstep)

/-- The slots held by the instances on context `n`. -/
def heldSlots (n : Nat) (l : List Instance) : List Slot := l.filterMap fun x => if x.ctx = n then x.slot else none

/-- Each instance Armed on the context holds one slot. -/
theorem length_heldSlots (n : Nat) (l : List Instance) :
    (heldSlots n l).length = (l.filter fun x => decide (x.ctx = n) && x.slot.isSome).length := by
  rw [heldSlots, List.length_filterMap_eq_countP, List.countP_eq_length_filter]
  congr 2
  funext x
  by_cases hn : x.ctx = n <;> simp [hn]

/-- Under exclusive ownership no slot is held twice. -/
theorem nodup_heldSlots {aw : Nat} {s : State aw} (h : Safety.exclusive s) (n : Nat) :
    (heldSlots n s.insts).Nodup := by
  refine List.Pairwise.filterMap _ (fun x y hxy u hu v hv => ?_) (pairwise_of_exclusive h)
  obtain ⟨hx, hu⟩ := Option.ite_none_right_eq_some.mp hu
  obtain ⟨hy, hv⟩ := Option.ite_none_right_eq_some.mp hv
  exact fun huv => hxy (hx.trans hy.symm) u hu (huv ▸ hv)

/-- Settles O43: no slot is held twice, and there are four. -/
theorem atMostFourArmedPerContext : Obligations.AtMostFourArmedPerContext := by
  intro s n h
  rw [← length_heldSlots]
  simpa using (nodup_heldSlots h.2 n).length_le_card

end Sys2Proof.Machine
end

section
/-! SUPPORT. What one step does with each input, and the statements of 10_state.md, 42_commands.md and 00_scope.md about
commands presented: R25, R86, R100 and R5. -/

namespace Sys2Proof.Machine

/-! ### The step on each input -/

/-- A step that has a command presented, as a word or abstractly, is the command's meaning. -/
theorem stepAt_command {aw : Nat} {s : State aw} {n : Nat} {inp : Input aw} {rest : List (Input aw)} {i : Instr aw}
    (h : s.inputs = inp :: rest) (hi : Safety.commandFor n inp = some i) :
    stepAt s = execAt i (present s n rest) := by
  cases inp with
  | word m w =>
    obtain ⟨rfl, hw⟩ := Option.ite_none_right_eq_some.mp hi
    cases hw
    rw [stepAt, stepWith, h]
  | call m j =>
    obtain ⟨rfl, hj⟩ := Option.ite_none_right_eq_some.mp hi
    cases hj
    rw [stepAt, stepWith, h]
  | reset m => cases hi
  | foreignDc k v => cases hi
  | foreignDa k d v => cases hi
  | access k a => cases hi

/-- With no input the machine waits (R25). -/
theorem stepAt_of_no_input {aw : Nat} {s : State aw} (hin : s.inputs = []) : stepAt s = .next s := by
  rw [stepAt, stepWith, hin]

section inputs
variable {s : State} {n : Nat} {rest : List Input}

theorem step_of_no_input (h : s.inputs = []) : step s = .next s :=
  (step_eq_stepAt s).trans (stepAt_of_no_input h)

theorem step_call {i : Instr} (h : s.inputs = .call n i :: rest) : step s = exec i (present s n rest) := by
  rw [step, stepWith, h]

/-- A foreign write of the control register writes that register of a context that exists (R62). -/
theorem step_foreignDc {k : Ctx} {v : Word} (h : s.inputs = .foreignDc n v :: rest) (hk : s.ctxs[n]? = some k) :
    step s = .next (writeCtx (present s s.cur rest) n (writeDc k v)) := by
  simp only [step, stepWith, h, foreignWriteDc, foreignWrite, present_ctxs, hk]

/-- A foreign write of an address register writes that register of a context that exists (R62). -/
theorem step_foreignDa {k : Ctx} {d : Slot} {v : Addr} (h : s.inputs = .foreignDa n d v :: rest)
    (hk : s.ctxs[n]? = some k) :
    step s = .next (writeCtx (present s s.cur rest) n (writeDa k d v)) := by
  simp only [step, stepWith, h, foreignWriteDa, foreignWrite, present_ctxs, hk]

/-- An access to a context that exists is evaluated against it and observed (R115). -/
theorem step_access {k : Ctx} {a : Access Config.aw} (h : s.inputs = .access n a :: rest) (hk : s.ctxs[n]? = some k) :
    step s = .next (record (present s s.cur rest) (.access n a (watchMatch k a))) := by
  simp only [step, stepWith, h, evaluateAccess, present_ctxs, hk]

end inputs

/-! ### Inputs that do not stop the machine -/

/-- Where every instance is bound, an instance that exists is bound to a context that exists. -/
theorem exists_bound {aw : Nat} {s : State aw} (h : Safety.allBound s) {n : Nat} (hn : n < s.insts.length) :
    ∃ x c, bound s n x c := by
  have hctx : s.insts[n].ctx < s.ctxs.length := h _ (List.getElem_mem hn)
  exact ⟨_, _, List.getElem?_eq_getElem hn, List.getElem?_eq_getElem hctx⟩

/-- A command of a bound instance always goes through (R100). -/
theorem exec_isCommand {s : State} {x : Instance} {c : Ctx} {i : Instr} (hi : i.isCommand = true)
    (hb : bound s s.cur x c) : ∃ o, exec i s = .next (commit s x.ctx i o) := by
  obtain ⟨f, hf⟩ := exists_commandOf hi
  exact ⟨_, exec_bound hf hb⟩

theorem inst_of_readSlot {aw : Nat} {s : State aw} {n : Nat} {v : SlotIndex} (h : readSlot s n = some v) :
    ∃ x, s.insts[n]? = some x ∧ x.slot = v :=
  Option.map_eq_some_iff.mp h

/-! ### The statements -/

/-- Settles O4: the three inputs a step tells apart here, each by its lemma. -/
theorem stepRunsPresentedCommand : Obligations.StepRunsPresentedCommand :=
  ⟨fun _ _ _ _ h => step_word h, fun _ _ _ _ h => step_call h, fun _ h => step_of_no_input h⟩

/-- Settles O31: the meaning of a command on a bound instance commits its function's output. -/
theorem everyCommandCompletes : Obligations.EveryCommandCompletes := by
  intro s x k i hb hi
  obtain ⟨o, hexec⟩ := exec_isCommand hi hb
  exact ⟨_, _, _, hexec, rfl⟩

/-- Settles O32: each kind of input finds what it names, and a command its instance bound. -/
theorem addressedInputsNeverStop : Obligations.AddressedInputsNeverStop := by
  intro s hbound haddr
  have hexec {n : Nat} (rest : List Input) {i : Instr} (hn : n < s.insts.length) (hi : i.isCommand = true) :
      ∃ t, exec i (present s n rest) = .next t := by
    obtain ⟨x, c, hb⟩ := exists_bound hbound hn
    obtain ⟨o, ho⟩ := exec_isCommand (s := present s n rest) hi hb
    exact ⟨_, ho⟩
  cases hin : s.inputs with
  | nil => exact ⟨s, step_of_no_input hin⟩
  | cons inp rest =>
    have ha := haddr inp rest hin
    cases inp with
    | word n w => rw [step_word hin]; exact hexec rest ha.1 ha.2
    | call n i => rw [step_call hin]; exact hexec rest ha.1 ha.2
    | reset n =>
      obtain ⟨-, hslot, hlife⟩ := ha
      obtain ⟨x, hx, hunarmed⟩ := inst_of_readSlot hslot
      have hadm : resetAdmitted (present s s.cur rest) n x = true := resetAdmitted_eq_true.mpr ⟨hunarmed, hlife⟩
      rw [step_reset hin, createInstance_of_admitted (s := present s s.cur rest) hx hadm]
      exact ⟨_, resetInstance_of_inst hx⟩
    | foreignDc n v => exact ⟨_, step_foreignDc hin (List.getElem?_eq_getElem ha)⟩
    | foreignDa n d v => exact ⟨_, step_foreignDa hin (List.getElem?_eq_getElem ha)⟩
    | access n a => exact ⟨_, step_access hin (List.getElem?_eq_getElem ha)⟩

/-- Settles O49: a foreign write is one write of one context, of one register in it. -/
theorem foreignWriteChangesOneRegister : Obligations.ForeignWriteChangesOneRegister := by
  have hself {s : State} {n : Nat} {k : Ctx} (hk : s.ctxs[n]? = some k) (c : Ctx) :
      (s.ctxs.set n c)[n]? = some c :=
    List.getElem?_set_self (List.getElem?_eq_some_iff.mp hk).1
  refine ⟨fun s n k v rest hin hk => ?_, fun s n k d v rest hin hk => ?_⟩
  · exact ⟨_, _, step_foreignDc hin hk, hself hk _, rfl, fun u => rfl,
      fun m hm => List.getElem?_set_ne hm.symm, rfl, rfl, rfl⟩
  · exact ⟨_, _, step_foreignDa hin hk, hself hk _, rfl, daOf_writeDa_same k d v, fun u hu => daOf_writeDa_ne k d v hu,
      fun m hm => List.getElem?_set_ne hm.symm, rfl, rfl, rfl⟩

/-- Settles O56: at every width the step on a presented command is `execAt`, which commits its function's output. -/
theorem everyAddressWidth : Obligations.EveryAddressWidth := by
  refine ⟨exec_eq_execAt, step_eq_stepAt, fun aw s x k i f n rest hin hb hif => ?_⟩
  have hf : commandOf i = some f := by
    rcases hif with ⟨a, w, c, rfl, rfl⟩ | ⟨rfl, rfl⟩ | ⟨rfl, rfl⟩ <;> rfl
  have hstep : stepAt s = execAt i (present s n rest) := by
    rcases hin with hcall | ⟨w, rfl, hword⟩
    · exact stepAt_command hcall (if_pos rfl)
    · exact stepAt_command hword (if_pos rfl)
  have hb' : bound (present s n rest) (present s n rest).cur x k := hb
  exact ⟨_, hstep.trans (execAt_bound hf hb'), commit_inst_self i _ _ _ hb', commit_ctx_self i _ _ hb', rfl, rfl⟩

end Sys2Proof.Machine
end

section
/-! SUPPORT. What one step does to the `SLOT` and the life of one instance, what a run keeps, and the statements of
10_state.md, 42_commands.md and 70_reset_and_hazards.md that follow: R11, R100, R131 and R135. -/

namespace Sys2Proof.Machine

/-! ### One instance over one step -/

section oneInstance
variable {aw : Nat} {s t : State aw}

/-- A step takes one input off the list. -/
theorem stepAt_inputs (h : stepAt s = .next t) : t.inputs = s.inputs.tail := by
  rcases stepAt_next h with ⟨e, rfl⟩ | ⟨n, i, rest, f, x, c, e | ⟨w, e, -⟩, -, -, rfl⟩ | ⟨n, rest, x, e, -, -, -, rfl⟩ |
    ⟨k, v, rest, c, e, -, rfl⟩ | ⟨k, d, v, rest, c, e, -, rfl⟩ | ⟨k, a, rest, c, e, -, rfl⟩
  all_goals simp [e]

/-- A step with one input known to be next leaves the rest. -/
theorem stepAt_inputs_cons (h : stepAt s = .next t) {inp : Input aw} {rest : List (Input aw)}
    (hin : s.inputs = inp :: rest) : t.inputs = rest := by
  rw [stepAt_inputs h, hin, List.tail_cons]

variable (n : Nat)

theorem readSlot_commit_ne {k : Nat} {i : Instr aw} {o : CommandOut aw} (h : n ≠ s.cur) :
    readSlot (commit s k i o) n = readSlot s n := by
  rw [readSlot, commit_inst_ne i s k o h, readSlot]

/-- What a step does to the `SLOT` and the life of instance `n`: nothing, unless its input is a command for `n`; then
`SLOT` is what the command gives, and the life goes on unless the command is RELEASE (R11, R135). -/
theorem stepAt_instance (h : stepAt s = .next t) {inp : Input aw} {rest : List (Input aw)}
    (hin : s.inputs = inp :: rest) :
    (Safety.commandFor n inp = none ∧ readSlot t n = readSlot s n ∧ inLife n t.log = inLife n s.log) ∨
    ∃ i f x c, Safety.commandFor n inp = some i ∧ commandOf i = some f ∧ bound s n x c ∧
      readSlot t n = some (f x.slot ⟨c, []⟩).slot ∧ inLife n t.log = !i.isRelease := by
  rcases stepAt_next h with ⟨e, -⟩ | ⟨m, i, rest', f, x, c, e, hf, hb, rfl⟩ | ⟨m, rest', x, e, hx, hunarmed, -, rfl⟩ |
    ⟨k, v, rest', c, e, -, rfl⟩ | ⟨k, d, v, rest', c, e, -, rfl⟩ | ⟨k, a, rest', c, e, -, rfl⟩
  case inl => rw [hin] at e; cases e
  case inr.inl =>
    have hcmd : Safety.commandFor n inp = if m = n then some i else none := by
      rcases e with e | ⟨w, e, rfl⟩ <;> · rw [hin] at e; cases e; rfl
    by_cases hm : m = n
    · subst hm
      rw [if_pos rfl] at hcmd
      exact .inr ⟨i, f, x, c, hcmd, hf, hb, readSlot_commit i (present s m rest') _ _ hb, inLife_command_same _ i _ _ _⟩
    · rw [if_neg hm] at hcmd
      exact .inl ⟨hcmd, readSlot_commit_ne (s := present s m rest') n (Ne.symm hm), inLife_command_ne n hm _ _ _ _⟩
  case inr.inr.inl =>
    rw [hin] at e
    cases e
    rw [← hunarmed, writeSlot_self (present s s.cur rest) m hx]
    exact .inl ⟨rfl, rfl, rfl⟩
  case inr.inr.inr.inl => rw [hin] at e; cases e; exact .inl ⟨rfl, rfl, rfl⟩
  case inr.inr.inr.inr.inl => rw [hin] at e; cases e; exact .inl ⟨rfl, rfl, rfl⟩
  case inr.inr.inr.inr.inr => rw [hin] at e; cases e; exact .inl ⟨rfl, rfl, rfl⟩

end oneInstance

/-! ### Lives -/

section lives
variable {aw : Nat} {s t : State aw} (n : Nat)

/-- RELEASE leaves the instance Unarmed (R98). -/
theorem slot_of_isRelease {i : Instr aw} {f : SlotIndex → Bus aw → CommandOut aw} (hf : commandOf i = some f)
    (hi : i.isRelease = true) (slot : SlotIndex) (b : Bus aw) : (f slot b).slot = none := by
  cases i with
  | release => cases hf; exact deactivate_slot slot b
  | activate a w c => cases hi
  | deactivate => cases hi
  | reservedOp00 => cases hi

/-- A command begins or goes on with a life, or is RELEASE and ends it. -/
theorem wholeLives_of_command {live : Bool} {inp : Input aw} {rest : List (Input aw)} {i : Instr aw}
    (hi : Safety.commandFor n inp = some i) (h : Safety.wholeLives n live (inp :: rest) = true) :
    Safety.wholeLives n (!i.isRelease) rest = true := by
  rwa [Safety.wholeLives, hi] at h

/-- Any other input leaves the life as it was. -/
theorem wholeLives_of_no_command {live : Bool} {inp : Input aw} {rest : List (Input aw)}
    (hi : Safety.commandFor n inp = none) (h : Safety.wholeLives n live (inp :: rest) = true) :
    Safety.wholeLives n live rest = true := by
  rw [Safety.wholeLives, hi] at h
  exact (Bool.and_eq_true_iff.mp h).2

/-- Instance `n` is Armed only during its life (R12, R98). -/
def ArmedOnlyInLife (n : Nat) (s : State aw) : Prop := ∀ u, readSlot s n = some (some u) → inLife n s.log = true

theorem armedOnlyInLife_of_inst {x : Instance} (hx : s.insts[n]? = some x)
    (h : x.slot ≠ none → inLife n s.log = true) : ArmedOnlyInLife n s := by
  intro u hu
  rw [readSlot_of_inst hx] at hu
  exact h (by rw [Option.some.inj hu]; exact Option.some_ne_none u)

theorem armedInLife_iff : Safety.armedInLife s ↔ ∀ n, ArmedOnlyInLife n s := by
  refine ⟨fun h n u hu => ?_, fun h n x hx hslot => ?_⟩
  · obtain ⟨x, hx, hxu⟩ := inst_of_readSlot hu
    exact h n x hx (by rw [hxu]; exact Option.some_ne_none u)
  · obtain ⟨u, hu⟩ := Option.ne_none_iff_exists'.mp hslot
    exact h n u (by rw [readSlot_of_inst hx, hu])

/-- Every step keeps it that an instance is Armed only during its life: of the commands only RELEASE ends a life, and
it leaves the instance Unarmed. -/
theorem stepAt_keeps_armedOnlyInLife (h : ArmedOnlyInLife n s) (hstep : stepAt s = .next t) : ArmedOnlyInLife n t := by
  cases hin : s.inputs with
  | nil => rw [stepAt_of_no_input hin] at hstep; cases hstep; exact h
  | cons inp rest =>
    intro u hu
    rcases stepAt_instance n hstep hin with ⟨-, hslot, hlife⟩ | ⟨i, f, x, c, -, hf, -, hslot, hlife⟩
    · rw [hlife]
      exact h u (hslot ▸ hu)
    · rw [hlife, Bool.not_eq_true']
      by_contra hrel
      rw [Bool.not_eq_false] at hrel
      rw [hslot, slot_of_isRelease hf hrel] at hu
      cases hu

/-- Every step keeps it that the inputs still to come are whole lives of an instance. -/
theorem stepAt_keeps_wholeLives (h : Safety.wholeLives n (inLife n s.log) s.inputs = true)
    (hstep : stepAt s = .next t) : Safety.wholeLives n (inLife n t.log) t.inputs = true := by
  cases hin : s.inputs with
  | nil => rw [stepAt_of_no_input hin] at hstep; cases hstep; exact h
  | cons inp rest =>
    rw [hin] at h
    rw [stepAt_inputs_cons hstep hin]
    rcases stepAt_instance n hstep hin with ⟨hcmd, -, hlife⟩ | ⟨i, f, x, c, hcmd, -, -, -, hlife⟩
    · rw [hlife]; exact wholeLives_of_no_command n hcmd h
    · rw [hlife]; exact wholeLives_of_command n hcmd h

end lives

/-! ### Runs -/

/-- A run of one step more is a step and then the run. -/
theorem run_succ (M : Host.Core) {k : Nat} {s t : M.State} :
    M.run (k + 1) s = .next t ↔ ∃ r, M.step s = .next r ∧ M.run k r = .next t := by
  rw [Host.Core.run]
  cases M.step s with
  | next r => simp
  | fault e => simp
  | refused e => simp

theorem core_run_succ {k : Nat} {s t : State} :
    core.run (k + 1) s = .next t ↔ ∃ r, step s = .next r ∧ core.run k r = .next t :=
  run_succ core

/-- What every step keeps, a run keeps. -/
theorem core_run_keeps {P : State → Prop} (hstep : ∀ s t, P s → step s = .next t → P t) {k : Nat} {s t : State}
    (hs : P s) (h : core.run k s = .next t) : P t := by
  induction k generalizing s with
  | zero => cases h; exact hs
  | succ k ih =>
    obtain ⟨r, hr, h⟩ := core_run_succ.mp h
    exact ih (hstep s r hs hr) h

/-- A run over the first inputs leaves the rest. -/
theorem core_run_inputs {l rest : List Input} {s r : State} (hin : s.inputs = l ++ rest)
    (h : core.run l.length s = .next r) : r.inputs = rest := by
  induction l generalizing s with
  | nil => cases h; exact hin
  | cons inp l ih =>
    obtain ⟨s', hs', h⟩ := core_run_succ.mp h
    exact ih (stepAt_inputs_cons (stepAt_of_step hs') hin) h

/-- One more step after a run. -/
theorem core_run_then_step {k : Nat} {s r t : State} (h : core.run k s = .next r) (hstep : step r = .next t) :
    core.run (k + 1) s = .next t := by
  induction k generalizing s with
  | zero => cases h; exact core_run_succ.mpr ⟨t, hstep, rfl⟩
  | succ k ih =>
    obtain ⟨s', hs', h⟩ := core_run_succ.mp h
    exact core_run_succ.mpr ⟨s', hs', ih h⟩

/-! ### The statements -/

/-- Only a legal ACTIVATE changes `SLOT`, if it is ACTIVATE that does, and it leaves the instance Armed. -/
theorem activate_of_slot_changed {aw : Nat} {a : BitVec aw} {w : Nat} {c : CondCode} {slot : SlotIndex} {b : Bus aw}
    (h : (activate a w c slot b).slot ≠ slot) :
    valid a w c = true ∧ ∃ u, (activate a w c slot b).slot = some u := by
  rcases activate_cases a w c slot b with ⟨-, e⟩ | ⟨r, -, -, e⟩ | ⟨r, u, hr, -, e⟩
  · rw [e] at h; exact absurd rfl h
  · rw [e] at h; exact absurd rfl h
  · exact ⟨valid_eq_true.mpr ⟨r, hr⟩, u, by rw [e]; rfl⟩

/-- Settles O37: a step writes the `SLOT` of an instance only by a command for it, with what the command gives. -/
theorem slotWrittenOnlyByOwnCommands : Obligations.SlotWrittenOnlyByOwnCommands := by
  intro s t n hstep hne
  cases hin : s.inputs with
  | nil => rw [step_of_no_input hin] at hstep; cases hstep; exact absurd rfl hne
  | cons inp rest =>
    refine ⟨inp, rest, rfl, ?_⟩
    rcases stepAt_instance n (stepAt_of_step hstep) hin with ⟨-, hslot, -⟩ | ⟨i, f, x, c, hcmd, hf, hb, hslot, -⟩
    · exact absurd hslot hne
    · rw [hslot, readSlot_of_inst hb.1, ne_eq, Option.some.injEq] at hne
      rw [hslot]
      cases i with
      | activate a w co =>
        cases hf
        obtain ⟨hv, u, hu⟩ := activate_of_slot_changed hne
        exact .inl ⟨a, w, co, hcmd, hv, u, congrArg some hu⟩
      | deactivate => cases hf; exact .inr ⟨.inl hcmd, congrArg some (deactivate_slot _ _)⟩
      | release => cases hf; exact .inr ⟨.inr hcmd, congrArg some (deactivate_slot _ _)⟩
      | reservedOp00 => cases hf

/-- Settles O55: both parts are kept instance by instance. -/
theorem lifetimesKeptByEveryStep : Obligations.LifetimesKeptByEveryStep := by
  have harmed (s t : State) (h : Safety.armedInLife s) (hstep : step s = .next t) : Safety.armedInLife t :=
    armedInLife_iff.mpr fun n => stepAt_keeps_armedOnlyInLife n (armedInLife_iff.mp h n) (stepAt_of_step hstep)
  refine ⟨harmed, fun s t h hstep => ⟨harmed s t h.1 hstep, fun n => ?_⟩⟩
  exact stepAt_keeps_wholeLives n (h.2 n) (stepAt_of_step hstep)

/-- What a run keeps of an instance that exists: it exists, is Armed only during its life, and the inputs still to come
are whole lives of it. -/
def LivesOut (n : Nat) (s : State) : Prop :=
  n < s.insts.length ∧ ArmedOnlyInLife n s ∧ Safety.wholeLives n (inLife n s.log) s.inputs = true

theorem step_keeps_livesOut (n : Nat) (s t : State) (h : LivesOut n s) (hstep : step s = .next t) : LivesOut n t := by
  obtain ⟨hn, harmed, hlives⟩ := h
  have hstep := stepAt_of_step hstep
  have hlen : t.insts.length = s.insts.length := by
    simpa using congrArg List.length (stepAt_bindings s hstep).1
  exact ⟨hlen ▸ hn, stepAt_keeps_armedOnlyInLife n harmed hstep, stepAt_keeps_wholeLives n hlives hstep⟩

/-- With no input left, whole lives are over. -/
theorem unarmed_of_livesOut {n : Nat} {s : State} (h : LivesOut n s) (hin : s.inputs = []) :
    readSlot s n = some none ∧ inLife n s.log = false := by
  obtain ⟨hn, harmed, hlives⟩ := h
  have hlife : inLife n s.log = false := by
    rw [hin] at hlives
    simpa [Safety.wholeLives] using hlives
  refine ⟨?_, hlife⟩
  have hslot := readSlot_of_inst (List.getElem?_eq_getElem hn)
  cases hu : s.insts[n].slot with
  | none => rw [hslot, hu]
  | some u =>
    rw [harmed u (hslot.trans (congrArg some hu))] at hlife
    cases hlife

/-- Settles O44: `LivesOut` is kept along the run and leaves the instance Unarmed where the inputs end; and a last
RELEASE is one more step, which gives up the slot held. -/
theorem lifetimeEndingInReleaseEndsUnarmed : Obligations.LifetimeEndingInReleaseEndsUnarmed := by
  refine ⟨fun fuel s t n x hx harmed hlives hrun hin => ?_, fun s r l last n x k hin hlast hrun hb => ?_⟩
  · have hs : LivesOut n s := ⟨(List.getElem?_eq_some_iff.mp hx).1, armedOnlyInLife_of_inst n hx harmed, hlives⟩
    exact unarmed_of_livesOut (core_run_keeps (step_keeps_livesOut n) hs hrun) hin
  · have hb' : bound (present r n []) (present r n []).cur x k := hb
    have hstep : step r = .next (commit (present r n []) x.ctx .release (release x.slot ⟨k, []⟩)) := by
      rw [step_eq_stepAt, stepAt_command (core_run_inputs hin hrun) hlast]
      exact execAt_bound rfl hb'
    refine ⟨_, _, core_run_then_step hrun hstep, rfl, ?_, commit_ctx_self _ _ _ hb', fun sl hsl => ?_⟩
    · exact (readSlot_commit _ (present r n []) _ _ hb').trans (congrArg some (deactivate_slot _ _))
    · rw [release_eq_deactivate, dc_deactivate, hsl]
      exact enOf_clearEnable_same k.dc sl

end Sys2Proof.Machine
end

section
/-! SUPPORT. Requests that are rejected, what a successful ACTIVATE leaves in its context, and the statements of
42_commands.md, 41_slot_allocator.md and 60_exceptions.md that follow: R37, R83, R90, R92 to R98 and R114. -/

namespace Sys2Proof.Machine

/-! ### Rejected requests -/

section rejected
variable {s : State} {x : Instance} {k : Ctx} {a : Addr} {w : Nat} {c : CondCode}

/-- ACTIVATE of an invalid request only records the error, with no accessor event (R94). -/
theorem exec_activate_invalid (hb : bound s s.cur x k) (hv : valid a w c = false) :
    exec (.activate a w c) s =
      .next (record s (.command s.cur (.activate a w c) .invalidBreakpointRequest [])) :=
  exec_activate_raises hb (activate_invalid a w c x.slot ⟨k, []⟩ (valid_eq_false.mp hv)) rfl

/-- A legal ACTIVATE that finds no slot only records the error, after one Get (R94). -/
theorem exec_activate_full (hb : bound s s.cur x k) (hv : valid a w c = true)
    (hfull : firstFree (releasedImage x.slot k.dc) = none) :
    exec (.activate a w c) s =
      .next (record s (.command s.cur (.activate a w c) .invalidBreakpointRequest [.get])) := by
  obtain ⟨r, hr⟩ := valid_eq_true.mp hv
  exact exec_activate_raises hb (activate_full a w c x.slot ⟨k, []⟩ hr hfull) rfl

end rejected

theorem getLsbD_zero_iff {n : Nat} (a : BitVec n) : a.getLsbD 0 = true ↔ a.toNat % 2 = 1 := by
  rw [← BitVec.testBit_toNat, Nat.testBit_zero, decide_eq_true_iff]

theorem low_two_bits_eq_zero_iff {n : Nat} (a : BitVec n) : a.extractLsb' 0 2 = 0#2 ↔ a.toNat % 4 = 0 := by
  rw [← BitVec.toNat_inj, BitVec.extractLsb'_toNat, Nat.shiftRight_zero]
  rfl

/-- Settles O17: no such width meets the first precondition. -/
theorem illegalWidthRejected : Obligations.IllegalWidthRejected := by
  intro s x k a w c hb h1 h2 h4
  exact exec_activate_invalid hb (valid_eq_false_of_width (by omega))

/-- Settles O18: the low bits are the remainder of the address by the width. -/
theorem misalignedAddressRejected : Obligations.MisalignedAddressRejected := by
  refine ⟨fun s x k a c hb => ⟨fun hodd => ?_, fun hlow => ?_⟩, fun a c ha => ?_⟩
  · refine exec_activate_invalid hb (Bool.eq_false_iff.mpr fun hv => ?_)
    obtain ⟨-, -, -, hmod⟩ := valid_iff.mp hv
    rw [getLsbD_zero_iff] at hodd
    omega
  · refine exec_activate_invalid hb (Bool.eq_false_iff.mpr fun hv => ?_)
    obtain ⟨-, -, -, hmod⟩ := valid_iff.mp hv
    exact hlow ((low_two_bits_eq_zero_iff a).mpr hmod)
  · have hc : encCond c = 0b01#2 ∨ encCond c = 0b11#2 := exists_encCond_iff.mp ⟨c, rfl⟩
    refine ⟨valid_iff.mpr ⟨.inl rfl, hc, ha, Nat.mod_one _⟩, fun heven => ?_, fun hlow => ?_⟩
    · have hmod : ¬ a.toNat % 2 = 1 := fun hodd => by
        rw [(getLsbD_zero_iff a).mpr hodd] at heven; cases heven
      exact valid_iff.mpr ⟨.inr (.inl rfl), hc, ha, by omega⟩
    · exact valid_iff.mpr ⟨.inr (.inr rfl), hc, ha, (low_two_bits_eq_zero_iff a).mp hlow⟩

/-- Settles O19: such a request misses the second or the third precondition. -/
theorem nullAddressOrIllegalConditionRejected : Obligations.NullAddressOrIllegalConditionRejected := by
  intro s x k a w c hb hbad
  refine exec_activate_invalid hb (Bool.eq_false_iff.mpr fun hv => ?_)
  obtain ⟨-, hc, ha, -⟩ := valid_iff.mp hv
  rcases hbad with hnull | ⟨h1, h3⟩
  · exact ha hnull
  · exact hc.elim h1 h3

/-- Settles O22: DEACTIVATE and RELEASE report OK; ACTIVATE reports the error in its first two outcomes, which leave
`SLOT` and the context as they were, and the second needs an instance that gives up no slot. -/
theorem errorIsPreciseAndOnlyFromActivate : Obligations.ErrorIsPreciseAndOnlyFromActivate := by
  refine ⟨rfl, fun s t i ev hexec hlog => ?_⟩
  obtain ⟨f, x, k, hf, hb, rfl⟩ := exec_next hexec
  rw [commit_log, List.cons.injEq, Obs.command.injEq] at hlog
  obtain ⟨⟨-, -, hres, rfl⟩, -⟩ := hlog
  cases i with
  | activate a w c =>
    cases hf
    rcases activate_cases a w c x.slot ⟨k, []⟩ with ⟨hr, e⟩ | ⟨r, hr, hfull, e⟩ | ⟨r, sl, -, -, e⟩
    · rw [e]
      exact ⟨commit_unchanged _ s _ hb rfl rfl, a, w, c, x, k, rfl, hb, .inl ⟨valid_eq_false.mpr hr, rfl⟩⟩
    · have hunarmed : x.slot = none := by
        by_contra hne
        obtain ⟨u, hu⟩ := Option.ne_none_iff_exists'.mp hne
        have hocc := firstFree_none hfull u
        rw [hu, releasedImage_some, slotFree_clearEnable_same] at hocc
        cases hocc
      rw [e]
      refine ⟨commit_unchanged _ s _ hb rfl rfl, a, w, c, x, k, rfl, hb,
        .inr ⟨valid_eq_true.mpr ⟨r, hr⟩, hunarmed, ?_, rfl⟩⟩
      rw [hunarmed] at hfull
      exact firstFree_none hfull
    · rw [e] at hres; cases hres
  | deactivate => cases hf; rw [deactivate_result] at hres; cases hres
  | release => cases hf; rw [release_eq_deactivate, deactivate_result] at hres; cases hres
  | reservedOp00 => cases hf

/-! ### The context after a successful ACTIVATE -/

/-- The context that a successful ACTIVATE leaves: `slot` given up, slot `sl` armed for the request (R92). -/
def armedCtx {aw : Nat} (k : Context aw) (slot : SlotIndex) (sl : Slot) (r : Request aw) : Context aw :=
  writeDc (writeDa k sl r.addr) (packSlot (releasedImage slot k.dc) sl r.width r.cond)

section armed
variable {aw : Nat} (k : Context aw) (slot : SlotIndex) (sl : Slot) (r : Request aw)

@[simp] theorem armedCtx_dc :
    (armedCtx k slot sl r).dc = packSlot (releasedImage slot k.dc) sl r.width r.cond := rfl

@[simp] theorem daOf_armedCtx_same : daOf (armedCtx k slot sl r) sl = r.addr := daOf_writeDa_same k sl r.addr

theorem daOf_armedCtx_ne {u : Slot} (h : u ≠ sl) : daOf (armedCtx k slot sl r) u = daOf k u :=
  daOf_writeDa_ne k sl r.addr h

theorem clOf_armedCtx_ne {u : Slot} (h : u ≠ sl) : clOf (armedCtx k slot sl r).dc u = clOf k.dc u := by
  rw [armedCtx_dc, clOf_packSlot_ne _ _ _ h, clOf_releasedImage]

/-- A slot given up and not taken again is disabled. -/
theorem enOf_armedCtx_released {u : Slot} (h : u ≠ sl) : enOf (armedCtx k (some u) sl r).dc u = 0#2 := by
  rw [armedCtx_dc, enOf_packSlot_ne _ _ _ h, releasedImage_some, enOf_clearEnable_same]

/-- A bit outside the slot taken and the enable field given up stays. -/
theorem getLsbD_armedCtx_outside {j : Nat} (hj : j < CW) (hen : ¬ (enOff sl ≤ j ∧ j < enOff sl + 2))
    (hcl : ¬ (clOff sl ≤ j ∧ j < clOff sl + 4)) (hrel : ∀ u, slot = some u → ¬ (enOff u ≤ j ∧ j < enOff u + 2)) :
    (armedCtx k slot sl r).dc.getLsbD j = k.dc.getLsbD j := by
  rw [armedCtx_dc, getLsbD_packSlot _ _ _ _ _ hj, if_neg hen, if_neg hcl]
  cases slot with
  | none => rfl
  | some u => rw [releasedImage_some, getLsbD_clearEnable _ _ _ hj, if_neg (hrel u rfl)]

end armed

/-- The presented width's length code (R73). -/
theorem encLen_eq_ite {w : Nat} {lw : Width} (h : w = widthBytes lw) :
    encLen lw = if w = 1 then 0b00#2 else if w = 2 then 0b01#2 else 0b11#2 := by
  subst h
  cases lw <;> rfl

section armedRun
variable {s : State} {x : Instance} {k : Ctx} {a : Addr} {w : Nat} {c : CondCode}

/-- A valid request with a slot to take completes, and commits the slot and the armed context (R92). -/
theorem exec_activate_ok {r : Request Config.aw} {sl : Slot} (hb : bound s s.cur x k) (hr : request a w c = some r)
    (hfree : firstFree (releasedImage x.slot k.dc) = some sl) :
    exec (.activate a w c) s = .next (commit s x.ctx (.activate a w c)
      (finishOk (some sl) ⟨armedCtx k x.slot sl r, [.get, .set]⟩)) := by
  rw [exec_bound rfl hb, activate_ok a w c x.slot ⟨k, []⟩ hr hfree]
  rfl

/-- An Armed instance always finds a slot, the one it gives up or a lower one (R83 (c)). -/
theorem exists_rearm_slot {r : Slot} (harmed : x.slot = some r) :
    ∃ sl, firstFree (releasedImage x.slot k.dc) = some sl ∧ sl ≤ r := by
  rw [harmed]
  exact exists_firstFree_le (slotFree_clearEnable_same k.dc r)

end armedRun

/-- Settles O20: the fields of the armed context, and `commit` writes nothing but it and `SLOT`. -/
theorem activateArmsFirstFreeSlot : Obligations.ActivateArmsFirstFreeSlot := by
  intro s x k a w c sl hb hv hfree
  obtain ⟨r, hr⟩ := valid_eq_true.mp hv
  obtain ⟨haddr, hw, hc, -⟩ := request_eq_some.mp hr
  refine ⟨_, _, exec_activate_ok hb hr hfree, commit_inst_self _ s _ _ hb, fun m hm => commit_inst_ne _ s _ _ hm,
    commit_ctx_self _ s _ hb, fun m hm => commit_ctx_ne _ s _ _ hm, ?_, fun u hu => daOf_armedCtx_ne k x.slot sl r hu,
    enOf_packSlot_same _ sl _ _, ?_, ?_, ?_, fun u hu hne => ?_,
    fun j hj hen hcl hrel => getLsbD_armedCtx_outside k x.slot sl r hj hen hcl hrel, rfl, rfl, rfl⟩
  · exact (daOf_armedCtx_same k x.slot sl r).trans haddr
  · have hbit : lOf (armedCtx k x.slot sl r).dc sl = (enOf (armedCtx k x.slot sl r).dc sl).getLsbD 0 := by
      simp [lOf, enOf, enW]
    exact hbit.trans (by rw [armedCtx_dc, enOf_packSlot_same]; rfl)
  · exact (condOf_packSlot_same _ sl r.width r.cond).trans hc.symm
  · exact (lenOf_packSlot_same _ sl r.width r.cond).trans (encLen_eq_ite hw)
  · rw [hu]
    exact enOf_armedCtx_released k sl r hne

/-- Settles O21: an Unarmed instance gives up nothing, so no slot is free; an Armed one finds a slot. -/
theorem exhaustionFailsOnlyFromUnarmed : Obligations.ExhaustionFailsOnlyFromUnarmed := by
  intro s x k a w c hb hv
  refine ⟨fun hunarmed hocc => ?_, fun u harmed => ?_⟩
  · exact exec_activate_full hb hv (by rw [hunarmed]; exact firstFree_eq_none.mpr hocc)
  · obtain ⟨r, hr⟩ := valid_eq_true.mp hv
    obtain ⟨sl, hfree, -⟩ := exists_rearm_slot (k := k) harmed
    exact ⟨_, exec_activate_ok hb hr hfree, rfl⟩

/-! ### Re-arm -/

/-- Settles O23: the slot taken is the first free one of the image in which the held one is free too. -/
theorem rearmKeepsOrLowersSlot : Obligations.RearmKeepsOrLowersSlot := by
  intro s x k a w c u hb hv harmed
  obtain ⟨r, hr⟩ := valid_eq_true.mp hv
  obtain ⟨sl, hfree, hle⟩ := exists_rearm_slot (k := k) harmed
  have hfirst : firstFree (clearEnable k.dc u) = some sl := by rw [← hfree, harmed, releasedImage_some]
  obtain ⟨hslfree, hbelow⟩ := firstFree_some hfirst
  refine ⟨_, _, sl, exec_activate_ok hb hr hfree, readSlot_commit _ s _ _ hb, commit_ctx_self _ s _ hb, hle, ?_,
    fun v hv => ?_,
    fun hne => ⟨?_, ?_, clOf_armedCtx_ne k x.slot sl r hne.symm, daOf_armedCtx_ne k x.slot sl r hne.symm⟩⟩
  · rw [← firstFree_clearEnable_eq_self, hfirst, Option.some.injEq]
  · rw [← slotFree_clearEnable_ne k.dc (hv.trans_le hle).ne]
    exact hbelow v hv
  · rwa [slotFree_clearEnable_ne k.dc hne] at hslfree
  · rw [harmed]
    exact enOf_armedCtx_released k sl r hne.symm

/-- Settles O24: both ways the instance takes the same slot and the context ends the same, because giving up the held
slot is ACTIVATE's own first step. -/
theorem rearmEqualsDeactivateThenActivate : Obligations.RearmEqualsDeactivateThenActivate := by
  intro s x k a w c u hb hv harmed
  obtain ⟨r, hr⟩ := valid_eq_true.mp hv
  obtain ⟨sl, hfree, -⟩ := exists_rearm_slot (k := k) harmed
  have hrearm := exec_activate_ok hb hr hfree
  have hdeact := exec_bound (i := .deactivate) rfl hb
  rw [harmed] at hfree hrearm hdeact
  have hact := exec_activate_ok (bound_commit .deactivate s (deactivate (some u) ⟨k, []⟩) hb) hr hfree
  obtain ⟨hinsts, hctxs⟩ := commit_commit .deactivate s x.ctx (deactivate (some u) ⟨k, []⟩) (.activate a w c)
    (finishOk (some sl) ⟨armedCtx k (some u) sl r, [.get, .set]⟩)
  exact ⟨_, _, _, hrearm, hdeact, hact, hinsts.symm, hctxs.symm⟩

/-! ### DEACTIVATE and RELEASE -/

/-- Settles O26: RELEASE runs DEACTIVATE's function, so only the command in the observation differs. -/
theorem releaseDisarms : Obligations.ReleaseDisarms := by
  intro s x k hb
  have hrel : exec .release s = .next (commit s x.ctx .release (deactivate x.slot ⟨k, []⟩)) := exec_bound rfl hb
  have hdeact : exec .deactivate s = .next (commit s x.ctx .deactivate (deactivate x.slot ⟨k, []⟩)) :=
    exec_bound rfl hb
  refine ⟨_, _, (deactivate x.slot ⟨k, []⟩).bus.events, hrel, ?_, ?_, commit_ctx_self _ s _ hb, fun r harmed => ?_,
    fun u => ⟨?_, daOf_deactivate _ _ u⟩, ?_⟩
  · rw [hdeact, commit, deactivate_result]; rfl
  · rw [readSlot_commit _ s _ _ hb, deactivate_slot]
  · rw [dc_deactivate, harmed]
    exact enOf_clearEnable_same k.dc r
  · rw [dc_deactivate, clOf_releasedImage]
  · rw [commit_log, deactivate_result]

/-- Settles O27: the first leaves the instance Unarmed, and on Unarmed DEACTIVATE changes nothing. -/
theorem deactivateIsIdempotent : Obligations.DeactivateIsIdempotent := by
  intro s x k hb
  have hagain := bound_commit .deactivate s (deactivate x.slot ⟨k, []⟩) hb
  have hunarmed : (deactivate x.slot ⟨k, []⟩).slot = none := deactivate_slot _ _
  refine ⟨_, exec_bound rfl hb, ?_, ?_⟩
  · rw [readSlot_commit _ s _ _ hb, hunarmed]
  · exact (deactivateClearsOnlyEnable _ _ _ hagain).1 hunarmed

/-- Giving up a slot keeps every condition code (R77). -/
theorem condOf_clearEnable (dc : Word) (s t : Slot) : condOf (clearEnable dc s) t = condOf dc t := by
  obtain ⟨hen, -⟩ := slot_range s
  obtain ⟨-, hcl, hcw⟩ := slot_range t
  exact extract_setBits_disjoint _ _ (by omega) (.inl (by simp only [enW]; omega))

/-- Settles O28: DEACTIVATE writes back the `SLOT` that ACTIVATE found, and clears the enable field it set. -/
theorem activateThenDeactivateRoundTrip : Obligations.ActivateThenDeactivateRoundTrip := by
  intro s x k a w c sl hb hunarmed hv hfree
  obtain ⟨r, hr⟩ := valid_eq_true.mp hv
  obtain ⟨haddr, -, hc, -⟩ := request_eq_some.mp hr
  have hact := exec_activate_ok hb hr (sl := sl) (by rwa [hunarmed])
  rw [hunarmed] at hact
  have hb' := bound_commit (.activate a w c) s (finishOk (some sl) ⟨armedCtx k none sl r, [.get, .set]⟩) hb
  have hdeact := exec_bound (i := .deactivate) rfl hb'
  refine ⟨_, _, _, hact, hdeact, ?_, commit_ctx_self _ _ _ hb', fun m hm => ?_, enOf_clearEnable_same _ sl,
    (daOf_armedCtx_same k none sl r).trans haddr, ?_, fun u hu => daOf_armedCtx_ne k none sl r hu,
    fun j hj hen hcl => getLsbD_clearEnable_packSlot k.dc sl r.width r.cond hj hen hcl⟩
  · obtain ⟨hinsts, -⟩ := commit_commit (.activate a w c) s x.ctx
      (finishOk (some sl) ⟨armedCtx k none sl r, [.get, .set]⟩) .deactivate
      (deactivate (some sl) ⟨armedCtx k none sl r, []⟩)
    have hself := congrArg State.insts (writeSlot_self s s.cur hb.1)
    rw [hunarmed] at hself
    exact hinsts.trans hself
  · exact (commit_ctx_ne _ _ _ _ hm).trans (commit_ctx_ne _ s _ _ hm)
  · exact (condOf_clearEnable _ sl sl).trans ((condOf_packSlot_same _ sl r.width r.cond).trans hc.symm)

/-- Settles O33: the events of ACTIVATE's three outcomes and of DEACTIVATE's two. -/
theorem accessorEventsPerCommand : Obligations.AccessorEventsPerCommand := by
  intro aw slot k
  refine ⟨fun a w c hv => ?_, fun a w c hv hfull => ?_, fun a w c sl hv hfree => ?_, ?_, ?_⟩
  · rw [activate_invalid a w c slot ⟨k, []⟩ (valid_eq_false.mp hv), raiseInvalid_bus]
  · obtain ⟨r, hr⟩ := valid_eq_true.mp hv
    rw [activate_full a w c slot ⟨k, []⟩ hr hfull]; rfl
  · obtain ⟨r, hr⟩ := valid_eq_true.mp hv
    rw [activate_ok a w c slot ⟨k, []⟩ hr hfree]; rfl
  · cases slot <;> rfl
  · cases slot <;> rfl

end Sys2Proof.Machine
end

section
/-! SUPPORT. The machine after reset, reset during a life, construction, a stale `SLOT`, and the statements of
10_state.md and 70_reset_and_hazards.md that follow: R27, R130 to R132 and R139. -/

namespace Sys2Proof.Machine

/-! ### The machine after reset -/

theorem inst_of_mem_reset {x : Instance} (hx : x ∈ State.reset.insts) : x = ⟨none, 0⟩ := List.eq_of_mem_replicate hx

/-- Settles O46: the contexts after reset are copies of the one with all zeros. -/
theorem resetContextsHoldModelChoice : Obligations.ResetContextsHoldModelChoice := by
  refine ⟨rfl, rfl, fun k hk => ?_⟩
  obtain rfl : k = resetContext := List.eq_of_mem_replicate hk
  exact ⟨rfl, by decide⟩

/-- Settles O41: after reset every instance is Unarmed and on context 0, and there is no input and no record. -/
theorem resetMeetsInvariants : Obligations.ResetMeetsInvariants := by
  refine ⟨⟨fun x hx c _ t ht => ?_, fun i j x y _ hx _ _ t ht => ?_⟩, fun x hx => ?_,
    fun n x hx hslot => ?_, fun n => rfl⟩
  · rw [inst_of_mem_reset hx] at ht; cases ht
  · rw [inst_of_mem_reset (List.mem_of_getElem? hx)] at ht; cases ht
  · rw [inst_of_mem_reset hx]; decide
  · rw [inst_of_mem_reset (List.mem_of_getElem? hx)] at hslot; exact absurd rfl hslot

/-! ### Reset during a life -/

/-- A reset input for an instance that is Armed, or in its life, is refused (R131, U9). -/
theorem createInstance_refused {aw : Nat} {s : State aw} {n : Nat} {x : Instance} (hx : s.insts[n]? = some x)
    (h : x.slot ≠ none ∨ inLife n s.log = true) : createInstance n s = .refused .resetDuringLife := by
  have hadm : ¬ resetAdmitted s n x = true := fun hadm => by
    obtain ⟨hunarmed, hlife⟩ := resetAdmitted_eq_true.mp hadm
    rcases h with harmed | hin
    · exact harmed hunarmed
    · rw [hlife] at hin; cases hin
  simp only [createInstance, hx, if_neg hadm]

/-- Settles O47: reset writes no context, so the slot stays occupied, and no other instance on the context held it. -/
theorem resetOfArmedLeavesSlotOccupied : Obligations.ResetOfArmedLeavesSlotOccupied := by
  refine ⟨fun s n x k r hb harmed hown => ?_, fun s n x rest hin hx h => ?_⟩
  · obtain ⟨hx, hk⟩ := hb
    have hocc : slotFree k.dc r = false := hown.1 x (List.mem_of_getElem? hx) k hk r harmed
    refine ⟨_, resetInstance_of_inst hx, hk, hocc, fun hfree => ?_, fun y hy hctx hslot => ?_⟩
    · rw [(firstFree_some hfree).1] at hocc; cases hocc
    · obtain ⟨m, hm⟩ := List.mem_iff_getElem?.mp hy
      rw [getElem?_writeSlot] at hm
      by_cases hmn : m = n
      · rw [if_pos hmn, hmn, hx] at hm
        cases hm
        cases hslot
      · rw [if_neg hmn] at hm
        exact hown.2 m n y x hmn hm hx hctx r hslot harmed
  · rw [step_reset hin]
    exact createInstance_refused (s := present s s.cur rest) hx h

/-! ### Construction -/

/-- A reset input that is admitted changes nothing but the list of inputs: the instance is Unarmed already. -/
theorem step_reset_admitted {s : State} {n : Nat} {x : Instance} {rest : List Input} (hin : s.inputs = .reset n :: rest)
    (hx : s.insts[n]? = some x) (hunarmed : x.slot = none) (hlife : inLife n s.log = false) :
    step s = .next (present s s.cur rest) := by
  have hadm : resetAdmitted (present s s.cur rest) n x = true := resetAdmitted_eq_true.mpr ⟨hunarmed, hlife⟩
  rw [step_reset hin, createInstance_of_admitted (s := present s s.cur rest) hx hadm,
    resetInstance_of_inst (s := present s s.cur rest) hx, ← hunarmed, writeSlot_self (present s s.cur rest) n hx]

/-- ACTIVATE from Unarmed ends on the first free slot if the request is valid and there is one, and else Unarmed with
the contexts unchanged (R132). -/
theorem exec_activate_from_unarmed {s : State} {x : Instance} {k : Ctx} (a : Addr) (w : Nat) (c : CondCode)
    (hb : bound s s.cur x k) (hunarmed : x.slot = none) :
    ∃ u, exec (.activate a w c) s = .next u ∧
      u.insts[s.cur]? = some ⟨if valid a w c = true then firstFree k.dc else none, x.ctx⟩ ∧
      (∀ r sl, request a w c = some r → firstFree k.dc = some sl → u.ctxs[x.ctx]? = some (armedCtx k none sl r)) ∧
      (valid a w c = false ∨ firstFree k.dc = none → u.ctxs = s.ctxs) := by
  obtain ⟨slot, n⟩ := x
  obtain rfl : slot = none := hunarmed
  cases hv : valid a w c with
  | false =>
    refine ⟨_, exec_activate_invalid hb hv, hb.1, fun r sl hr => ?_, fun _ => rfl⟩
    rw [valid_eq_false.mp hv] at hr; cases hr
  | true =>
    obtain ⟨r, hr⟩ := valid_eq_true.mp hv
    cases hfree : firstFree k.dc with
    | none => exact ⟨_, exec_activate_full hb hv hfree, hb.1, fun r sl _ hsl => (by cases hsl), fun _ => rfl⟩
    | some sl =>
      refine ⟨_, exec_activate_ok hb hr hfree, commit_inst_self _ s _ _ hb, fun r' sl' hr' hsl' => ?_, fun h => ?_⟩
      · cases hr.symm.trans hr'
        cases hsl'
        exact commit_ctx_self _ s _ hb
      · rcases h with h | h <;> cases h

/-- Settles O48: the reset changes nothing but the inputs, and ACTIVATE from Unarmed does the rest. -/
theorem constructActivatesOrLeavesUnarmed : Obligations.ConstructActivatesOrLeavesUnarmed := by
  intro s n x k a w c rest hb hunarmed hlife hin
  have hreset := step_reset_admitted (s := s) (rest := .call n (.activate a w c) :: rest) hin hb.1 hunarmed hlife
  obtain ⟨u, hexec, hinst, harmed, hfailed⟩ := exec_activate_from_unarmed (s := present s n rest) a w c hb hunarmed
  have hx : s.insts[n]? = some ⟨none, x.ctx⟩ := hunarmed ▸ hb.1
  refine ⟨_, u, hreset, hx, rfl, (step_call rfl).trans hexec, hexec, hinst, fun hv sl hfree => ?_, hfailed⟩
  obtain ⟨r, hr⟩ := valid_eq_true.mp hv
  obtain ⟨haddr, hw, hc, -⟩ := request_eq_some.mp hr
  exact ⟨_, harmed r sl hr hfree, (daOf_armedCtx_same k none sl r).trans haddr, enOf_packSlot_same _ sl _ _,
    (condOf_packSlot_same _ sl r.width r.cond).trans hc.symm,
    (lenOf_packSlot_same _ sl r.width r.cond).trans (encLen_eq_ite hw)⟩

/-! ### A stale `SLOT` -/

/-- Settles O50: DEACTIVATE clears the enable field its own `SLOT` names, and writes no other `SLOT`. -/
theorem staleSlotDisarmsOtherInstance : Obligations.StaleSlotDisarmsOtherInstance := by
  intro s n x y k r hb hn hy _ hxr hyr
  refine ⟨_, _, exec_bound (i := .deactivate) rfl hb, commit_ctx_self _ s _ hb, ?_, ?_⟩
  · rw [dc_deactivate, hxr]
    exact enOf_clearEnable_same k.dc r
  · rw [readSlot_commit_ne n hn, readSlot_of_inst hy, hyr]

end Sys2Proof.Machine
end

section
/-! SUPPORT. What the match answers for a slot armed and for one given up, what a disabled slot's address does to it,
and the statements of 60_exceptions.md and 10_state.md that follow: R14, R115 and R116. -/

namespace Sys2Proof.Machine

/-! ### The settled points of one slot -/

section settled
variable {aw : Nat} {k : Context aw} {u : Slot} {acc : Access aw}

theorem widthBytes_pos (w : Width) : 0 < widthBytes w := by cases w <;> decide

/-- An access of exactly the watched bytes matches them (R116). -/
theorem matchRange_same {d : BitVec aw} {w : Width} (hd : d.toNat % widthBytes w = 0)
    (htop : d.toNat + widthBytes w ≤ 2 ^ aw) : matchRange d w d (widthBytes w) = .yes := by
  have hw := widthBytes_pos w
  rw [matchRange, if_neg (by omega), if_pos ⟨rfl, rfl⟩]

/-- An access with no watched byte does not match. -/
theorem matchRange_apart {d a : BitVec aw} {w : Width} {n : Nat} (hd : d.toNat % widthBytes w = 0) (hn : n ≠ 0)
    (htop : a.toNat + n ≤ 2 ^ aw) (hapart : a.toNat + n ≤ d.toNat ∨ d.toNat + widthBytes w ≤ a.toNat) :
    matchRange d w a n = .no := by
  have hw := widthBytes_pos w
  rw [matchRange, if_neg (by omega), if_neg (by omega), if_pos hapart]

/-- A slot whose condition does not match the kind of access does not match, whatever its length code. -/
theorem slotMatch_of_kind_no {c : Condition} (hc : condOf k.dc u = encCond c) (hkind : matchKind c acc.kind = .no) :
    slotMatch k u acc = .no := by
  rw [slotMatch, decCond_eq_some.mpr hc]
  cases decLen (lenOf k.dc u) with
  | none => simp only [hkind, Settled.no_and, Settled.and_no]
  | some w => simp only [hkind, Settled.no_and, Settled.and_no]

/-- The match of a slot with legal codes: enable field, kind and bytes. -/
theorem slotMatch_of_codes {c : Condition} {w : Width} (hc : condOf k.dc u = encCond c) (hw : lenOf k.dc u = encLen w) :
    slotMatch k u acc =
      (matchEnable (enOf k.dc u)).and ((matchKind c acc.kind).and (matchRange (daOf k u) w acc.addr acc.size)) := by
  rw [slotMatch, decCond_eq_some.mpr hc, decLen_eq_some.mpr hw]

end settled

/-- Settles O53: the first two clauses by the kind of access, the third by the bytes. -/
theorem settledPointsOfWatchMatch : Obligations.SettledPointsOfWatchMatch := by
  intro aw k u acc
  refine ⟨fun hc hkind => ?_, fun hc hkind => ?_, fun w c hc hw hd hn htop hapart => ?_⟩
  · refine slotMatch_of_kind_no (c := .write) hc ?_
    cases h : acc.kind with
    | write => exact absurd h hkind
    | read => rfl
    | fetch => rfl
  · exact slotMatch_of_kind_no (c := .readOrWrite) hc (by rw [hkind]; rfl)
  · rw [slotMatch_of_codes hc hw, matchRange_apart hd hn htop hapart, Settled.and_no, Settled.and_no]

/-! ### Armed and disarmed -/

/-- The condition matches the kinds of access it names (R116). -/
theorem matchKind_yes {c : Condition} {kind : AccessKind}
    (h : kind = .write ∨ (kind = .read ∧ encCond c = 0b11#2)) : matchKind c kind = .yes := by
  rcases h with rfl | ⟨rfl, hc⟩
  · cases c <;> rfl
  · cases c with
    | write => exact absurd hc (by decide)
    | readOrWrite => rfl

/-- The slot a successful ACTIVATE takes matches an access of the watched bytes of a kind it watches (R115). -/
theorem slotMatch_armedCtx {aw : Nat} (k : Context aw) (slot : SlotIndex) (sl : Slot) (r : Request aw)
    {kind : AccessKind} (hkind : matchKind r.cond kind = .yes) (hd : r.addr.toNat % widthBytes r.width = 0)
    (htop : r.addr.toNat + widthBytes r.width ≤ 2 ^ aw) :
    slotMatch (armedCtx k slot sl r) sl ⟨kind, r.addr, widthBytes r.width⟩ = .yes := by
  rw [slotMatch_of_codes (condOf_packSlot_same _ sl _ _) (lenOf_packSlot_same _ sl _ _), armedCtx_dc,
    enOf_packSlot_same, daOf_armedCtx_same, hkind, matchRange_same hd htop]
  rfl

/-- An access presented to a context of a state is observed with the answer of the match, and nothing else changes. -/
theorem step_with_access {t : State} {n : Nat} {k : Ctx} {acc : Access Config.aw} {trap : Bool}
    (hk : t.ctxs[n]? = some k) (htrap : watchMatch k acc = trap) (rest : List Input) :
    step { t with inputs := .access n acc :: rest } =
      .next { t with inputs := rest, log := .access n acc trap :: t.log } := by
  have hstep := step_access (s := { t with inputs := .access n acc :: rest }) rfl hk
  rw [htrap] at hstep
  exact hstep

/-- A successful ACTIVATE leaves the armed context. -/
theorem exec_activate_leaves_armedCtx {s : State} {x : Instance} {k : Ctx} {a : Addr} {w : Nat} {c : CondCode}
    {r : Request Config.aw} {sl : Slot} (hb : bound s s.cur x k) (hr : request a w c = some r)
    (hfree : firstFree (releasedImage x.slot k.dc) = some sl) :
    ∃ t, exec (.activate a w c) s = .next t ∧ t.ctxs[x.ctx]? = some (armedCtx k x.slot sl r) :=
  ⟨_, exec_activate_ok hb hr hfree, commit_ctx_self _ s _ hb⟩

/-- Settles O51: the slot taken settles the match, and a legal request's bytes do not run past the top. -/
theorem armedWatchTraps : Obligations.ArmedWatchTraps := by
  intro s x k a w c kind sl hb hv hfree hkind
  obtain ⟨r, hr⟩ := valid_eq_true.mp hv
  have htop : a.toNat + w ≤ 2 ^ Config.aw := (validIffPreconditions Config.aw a w c (by decide)).2 hv
  obtain ⟨rfl, rfl, rfl, -, hmod⟩ := request_eq_some.mp hr
  obtain ⟨t, hexec, hctx⟩ := exec_activate_leaves_armedCtx hb hr hfree
  have htrap : watchMatch (armedCtx k x.slot sl r) ⟨kind, r.addr, widthBytes r.width⟩ = true :=
    watchMatch_settled_yes (slotMatch_armedCtx k x.slot sl r (matchKind_yes hkind) hmod htop)
  exact ⟨t, hexec, fun rest => step_with_access hctx htrap rest⟩

/-- Settles O52: DEACTIVATE and RELEASE free the held slot, and a free slot settles that it does not match. -/
theorem disarmedSlotNeverTraps : Obligations.DisarmedSlotNeverTraps := by
  refine ⟨fun s x k r i hb harmed hi => ?_, fun s n k acc rest hin hk hfree => ?_⟩
  · have hf : commandOf i = some deactivate := by rcases hi with rfl | rfl <;> rfl
    refine ⟨_, _, exec_bound hf hb, commit_ctx_self _ s _ hb, fun acc => slotMatch_disabled ?_ acc⟩
    rw [dc_deactivate, harmed]
    exact slotFree_clearEnable_same k.dc r
  · rw [step_access hin hk, watchMatch_settled_no fun u => slotMatch_disabled (hfree u) acc]
    rfl

/-! ### The address register of a disabled slot -/

section disabled
variable {aw : Nat}

theorem context_ext {c d : Context aw} (hdc : c.dc = d.dc) (hda : ∀ u, daOf c u = daOf d u) : c = d := by
  obtain ⟨ca, cc⟩ := c
  obtain ⟨da, dd⟩ := d
  obtain rfl : cc = dd := hdc
  obtain rfl : ca = da := Vector.ext fun i hi => hda ⟨i, hi⟩
  rfl

theorem dc_maskSlot (s : Slot) (c : Context aw) :
    (maskSlot s c).dc = if slotFree c.dc s = true then setBits c.dc (clOff s) clW 0 else c.dc := by
  rw [maskSlot]
  split <;> rfl

/-- What masking leaves of the address registers: those of the enabled slots. -/
theorem daOf_maskOff (c : Context aw) (u : Slot) :
    daOf (maskOff c) u = if slotFree c.dc u = true then 0#aw else daOf c u := by
  match u with
  | 0 | 1 | 2 | 3 => simp [maskOff, daOf_maskSlot]

/-- The masked control word depends on the control word alone. -/
theorem dc_maskOff_congr {c d : Context aw} (h : c.dc = d.dc) : (maskOff c).dc = (maskOff d).dc := by
  have hslot {c d : Context aw} (s : Slot) (h : c.dc = d.dc) : (maskSlot s c).dc = (maskSlot s d).dc := by
    rw [dc_maskSlot, dc_maskSlot, h]
  exact hslot 3 (hslot 2 (hslot 1 (hslot 0 h)))

variable {k : Context aw} {u : Slot} (v : BitVec aw)

/-- Masking hides the address register of a disabled slot (R14). -/
theorem maskOff_writeDa (h : slotFree k.dc u = true) : maskOff (writeDa k u v) = maskOff k := by
  refine context_ext (dc_maskOff_congr rfl) fun s => ?_
  rw [daOf_maskOff, daOf_maskOff, writeDa_dc]
  by_cases hs : s = u
  · rw [hs, if_pos h, if_pos h]
  · rw [daOf_writeDa_ne k u v hs]

/-- No slot's match depends on the address register of a disabled slot. -/
theorem slotMatch_writeDa (h : slotFree k.dc u = true) (s : Slot) (acc : Access aw) :
    slotMatch (writeDa k u v) s acc = slotMatch k s acc := by
  by_cases hs : s = u
  · rw [hs, slotMatch_disabled (c := writeDa k u v) h, slotMatch_disabled h]
  · rw [slotMatch, slotMatch, writeDa_dc, daOf_writeDa_ne k u v hs]

/-- The address register of a disabled slot changes no answer of the match. -/
theorem watchMatch_writeDa (h : slotFree k.dc u = true) (acc : Access aw) :
    watchMatch (writeDa k u v) acc = watchMatch k acc := by
  have hsettled : settledMatch (writeDa k u v) acc = settledMatch k acc := by
    simp only [settledMatch, slotMatch_writeDa v h]
  rw [watchMatch, watchMatch, hsettled, maskOff_writeDa v h]

end disabled

/-- Two contexts with the same control word lead a command to the same outputs, but for the address registers. -/
theorem command_congr_da {aw : Nat} {i : Instr aw} {f : SlotIndex → Bus aw → CommandOut aw} (hf : commandOf i = some f)
    (slot : SlotIndex) (da da' : Vector (BitVec aw) NSLOT) (dc : Word) :
    ∃ o dc₁ ev res da₁ da₁', f slot ⟨⟨da, dc⟩, []⟩ = ⟨o, ⟨⟨da₁, dc₁⟩, ev⟩, res⟩ ∧
      f slot ⟨⟨da', dc⟩, []⟩ = ⟨o, ⟨⟨da₁', dc₁⟩, ev⟩, res⟩ := by
  have hdeact : ∃ o dc₁ ev res da₁ da₁', deactivate slot ⟨⟨da, dc⟩, []⟩ = ⟨o, ⟨⟨da₁, dc₁⟩, ev⟩, res⟩ ∧
      deactivate slot ⟨⟨da', dc⟩, []⟩ = ⟨o, ⟨⟨da₁', dc₁⟩, ev⟩, res⟩ := by
    cases slot with
    | none => exact ⟨_, _, _, _, _, _, rfl, rfl⟩
    | some t => exact ⟨_, _, _, _, _, _, rfl, rfl⟩
  cases i with
  | activate a w c =>
    cases hf
    rcases activate_cases a w c slot ⟨⟨da, dc⟩, []⟩ with ⟨hr, e⟩ | ⟨r, hr, hfull, e⟩ | ⟨r, s, hr, hfree, e⟩
    · exact ⟨_, _, _, _, _, _, e, activate_invalid a w c slot _ hr⟩
    · exact ⟨_, _, _, _, _, _, e, activate_full a w c slot _ hr hfull⟩
    · exact ⟨_, _, _, _, _, _, e, activate_ok a w c slot _ hr hfree⟩
  | deactivate => cases hf; exact hdeact
  | release => cases hf; exact hdeact
  | reservedOp00 => cases hf

/-- Settles O35: the commands by their outcomes, the match because it reads the address of no disabled slot. -/
theorem addressRegistersNeverInfluence : Obligations.AddressRegistersNeverInfluence := by
  refine ⟨fun aw slot da da' dc f hf => ?_, fun aw k u v acc h => watchMatch_writeDa v h acc⟩
  obtain ⟨i, hi⟩ : ∃ i : Instr aw, commandOf i = some f := by
    rcases hf with ⟨a, w, c, rfl⟩ | rfl | rfl
    · exact ⟨.activate a w c, rfl⟩
    · exact ⟨.deactivate, rfl⟩
    · exact ⟨.release, rfl⟩
  obtain ⟨o, dc₁, ev, res, da₁, da₁', e, e'⟩ := command_congr_da hi slot da da' dc
  refine ⟨by rw [e, e'], by rw [e, e'], by rw [e, e'], by rw [e, e'], fun hdeact => ?_⟩
  rcases hdeact with rfl | rfl <;> exact da_deactivate slot ⟨⟨da, dc⟩, []⟩

end Sys2Proof.Machine
end
